-- ==== Sys2Proof/Word.lean ====
section
/-! DEFINITION. The word types of the block: every value is an unsigned integer of a stated width (R9). -/

namespace Sys2Proof

/-- u8: a colour channel, a level, a byte of the output stream. -/
abbrev Byte := BitVec 8

/-- u16: a pixel count, a pixel index, a ceiling, a ramp-table entry. -/
abbrev Half := BitVec 16

/-- u32: the `w` operand field, a register as `RDREG` returns it, the `VALUE` of a response. -/
abbrev Word := BitVec 32

/-- u64: a command word (R90) or a response word (R96). -/
abbrev Wide := BitVec 64

/-- A RampTable: 256 entries of u16 (R33, R157). -/
abbrev RampTable := Vector Half 256

/-- A Color: "three 8-bit unsigned channels (R, G, B)" (R12, R32). -/
structure Color where
  r : Byte
  g : Byte
  b : Byte
deriving DecidableEq, Repr, Inhabited

/-- Black, (0, 0, 0) (R32). -/
def Color.black : Color := ⟨0, 0, 0⟩

end Sys2Proof
end

