-- ==== Sys2Proof/Syntax.lean ====
section
/-! DEFINITION. The instructions: one constructor per row of spec/opcode_table.json, nine commands the block
accepts (R92) and six wire formats it emits (R98 to R101, R108). -/

namespace Sys2Proof

/-- One row of the opcode table each, operands as the row's fields (R91, R100). -/
inductive Instr where
  /-- `SETN n` (R220) -/
  | setn (n : Half)
  /-- `SETCEIL ch, c` (R221); `ch` is `a[1:0]`, 3 is reserved (R94) -/
  | setceil (ch : BitVec 2) (c : Half)
  /-- `WPIX i, r, g, b` (R222) -/
  | wpix (i : Half) (r g b : Byte)
  /-- `CLRPIX` (R223) -/
  | clrpix
  /-- `RAMP l, c` (R160) -/
  | ramp (l : Byte) (c : Half)
  /-- `LOOKUP l, c` (R176) -/
  | lookup (l : Byte) (c : Half)
  /-- `ENCODE` (R202) -/
  | encode
  /-- `RDOUT j` (R206) -/
  | rdout (j : Word)
  /-- `RDREG num` (R226) -/
  | rdreg (num : Byte)
  /-- `WIRE.START`: the start frame (R99, R193) -/
  | wireStart
  /-- `WIRE.LED.B1`: an LED record with brightness 1 (R100, R199) -/
  | wireLedB1 (b g r : Byte)
  /-- `WIRE.LED.B2`: an LED record with brightness 2 (R100, R199) -/
  | wireLedB2 (b g r : Byte)
  /-- `WIRE.LED.B4`: an LED record with brightness 4 (R100, R199) -/
  | wireLedB4 (b g r : Byte)
  /-- `WIRE.LED.B31`: an LED record with brightness 31 (R100, R199) -/
  | wireLedB31 (b g r : Byte)
  /-- `WIRE.END`: one byte of the end frame (R101, R200) -/
  | wireEnd
deriving DecidableEq, Repr

/-- The nine assigned values of `op` (R92). -/
inductive Opcode where
  | setn | setceil | wpix | clrpix | ramp | lookup | encode | rdout | rdreg
deriving DecidableEq, Repr

/-- The causes of R251: why the block refuses a command. -/
inductive Cause where
  /-- code 1: `op` is not one of the nine assigned values (R94(a)) -/
  | illegalOpcode
  /-- code 2: a must-be-zero bit is 1, or `SETCEIL` with channel 3 (R94(b), (c)) -/
  | reservedField
  /-- code 3: `WPIX` with `i >= NPIX`, `RDOUT` with `j >= OUTLEN` (R206, R222) -/
  | indexRange
  /-- code 4: `RDREG` with `num > 14` (R226) -/
  | badRegister
  /-- code 5: `SETN` with `n > PIX_CAP` (R220) -/
  | capacity
deriving DecidableEq, Repr

/-- Why a reader of the output stream rejects it (R102, R103, U5: a checker refuses). -/
inductive WireReject where
  /-- the first four bytes are not the start frame (R99) -/
  | badStartFrame
  /-- a record's first byte is none of E1, E2, E4, FF (R103) -/
  | badBrightness
  /-- a byte of the end frame is not FF, or the end frame has the wrong length (R101) -/
  | badEndFrame
  /-- the stream ends before the records do (R102) -/
  | tooShort
deriving DecidableEq, Repr

/-- The global brightness values the encoder emits, `BRIGHT_SET` (R7, R195). -/
inductive Brightness where
  | br1 | br2 | br4 | br31
deriving DecidableEq, Repr

/-- The number of bits the table gives the row: 64 for a command (R90), 32 for the start frame and a record,
8 for one byte of the end frame (R99 to R101). -/
def Instr.nbits : Instr → Nat
  | .setn _ | .setceil _ _ | .wpix _ _ _ _ | .clrpix | .ramp _ _ | .lookup _ _ | .encode | .rdout _ | .rdreg _ => 64
  | .wireStart | .wireLedB1 _ _ _ | .wireLedB2 _ _ _ | .wireLedB4 _ _ _ | .wireLedB31 _ _ _ => 32
  | .wireEnd => 8

/-- A row that is a command the block accepts, not a wire format it emits (R108). -/
def Instr.isCommand (i : Instr) : Bool := i.nbits == 64

end Sys2Proof
end

