-- ==== Sys2Proof/WellFormed.lean ====
section
/-! DEFINITION. Which terms of `Instr` are instructions: operands are unsigned fields of the row's width (R91),
which the types say, and the one reserved operand value is channel 3 (R94(c)). -/

namespace Sys2Proof

/-- `SETCEIL` has a legal channel: 0 R, 1 G, 2 B (R92, R94(c)). Every other operand value is legal as an
encoding (`RDREG` 15 to 255 is a legal word that faults, R93). -/
def Instr.wf : Instr → Bool
  | .setceil ch _ => ch != 3#2
  | .setn _ | .wpix _ _ _ _ | .clrpix | .ramp _ _ | .lookup _ _ | .encode | .rdout _ | .rdreg _ => true
  | .wireStart | .wireLedB1 _ _ _ | .wireLedB2 _ _ _ | .wireLedB4 _ _ _ | .wireLedB31 _ _ _ | .wireEnd => true

end Sys2Proof
end

