-- ==== Sys2Proof/Decode.lean ====
section
/-! DEFINITION. The command decoder (R90 to R95), the encoder, and the wire formats' bytes with the reader of
the output stream (R98 to R103). -/

namespace Sys2Proof

/-! ## The command word C64 (R90) -/

/-- `op` = word[63:56] (R90). -/
def opField (x : Wide) : Byte := x.extractLsb' 56 8

/-- `a` = word[55:48] (R90). -/
def aField (x : Wide) : Byte := x.extractLsb' 48 8

/-- `h` = word[47:32] (R90). -/
def hField (x : Wide) : Half := x.extractLsb' 32 16

/-- `w` = word[31:0] (R90). -/
def wField (x : Wide) : Word := x.extractLsb' 0 32

/-- The word with these four fields (R90). -/
def pack (op a : Byte) (h : Half) (w : Word) : Wide := op ++ a ++ h ++ w

/-- The command a value of `op` selects; the 247 others are unassigned (R92). -/
def opcodeOf (op : Byte) : Option Opcode :=
  if op = 0x01#8 then some .setn
  else if op = 0x02#8 then some .setceil
  else if op = 0x03#8 then some .wpix
  else if op = 0x04#8 then some .clrpix
  else if op = 0x10#8 then some .ramp
  else if op = 0x11#8 then some .lookup
  else if op = 0x20#8 then some .encode
  else if op = 0x21#8 then some .rdout
  else if op = 0x30#8 then some .rdreg
  else none

/-- The `match` column of R93. -/
def matchOf : Opcode → Wide
  | .setn => 0x0100000000000000#64
  | .setceil => 0x0200000000000000#64
  | .wpix => 0x0300000000000000#64
  | .clrpix => 0x0400000000000000#64
  | .ramp => 0x1000000000000000#64
  | .lookup => 0x1100000000000000#64
  | .encode => 0x2000000000000000#64
  | .rdout => 0x2100000000000000#64
  | .rdreg => 0x3000000000000000#64

/-- The `mask` column of R93. -/
def maskOf : Opcode → Wide
  | .setn => 0xFFFF0000FFFFFFFF#64
  | .setceil => 0xFFFC0000FFFFFFFF#64
  | .wpix => 0xFFFF0000FF000000#64
  | .clrpix => 0xFFFFFFFFFFFFFFFF#64
  | .ramp => 0xFF000000FFFFFFFF#64
  | .lookup => 0xFF000000FFFFFFFF#64
  | .encode => 0xFFFFFFFFFFFFFFFF#64
  | .rdout => 0xFFFFFFFF00000000#64
  | .rdreg => 0xFF00FFFFFFFFFFFF#64

/-- The operands of a word that matches its row (R91); `SETCEIL` channel 3 is reserved (R94(c)). -/
def operandsOf (op : Opcode) (x : Wide) : Except Cause Instr :=
  match op with
  | .setn => .ok (.setn (hField x))
  | .setceil =>
    let ch := (aField x).extractLsb' 0 2
    if ch = 3#2 then .error .reservedField else .ok (.setceil ch (hField x))
  | .wpix =>
    .ok (.wpix (hField x) ((wField x).extractLsb' 16 8) ((wField x).extractLsb' 8 8) ((wField x).extractLsb' 0 8))
  | .clrpix => .ok .clrpix
  | .ramp => .ok (.ramp (aField x) (hField x))
  | .lookup => .ok (.lookup (aField x) (hField x))
  | .encode => .ok .encode
  | .rdout => .ok (.rdout (wField x))
  | .rdreg => .ok (.rdreg (aField x))

/-- The decoding procedure, in order (R95 (1) and (2)): total on 64-bit words, rejecting by cause. -/
def decode (x : Wide) : Except Cause Instr :=
  match opcodeOf (opField x) with
  | none => .error .illegalOpcode
  | some op => if x &&& maskOf op = matchOf op then operandsOf op x else .error .reservedField

/-! ## The wire formats (R98 to R103) -/

/-- The bytes a wire format puts into the stream, first byte first (R99 to R101); a command puts none. -/
def wireBytes : Instr → List Byte
  | .wireStart => [0x00, 0x00, 0x00, 0x00]
  | .wireLedB1 b g r => [0xE1, b, g, r]
  | .wireLedB2 b g r => [0xE2, b, g, r]
  | .wireLedB4 b g r => [0xE4, b, g, r]
  | .wireLedB31 b g r => [0xFF, b, g, r]
  | .wireEnd => [0xFF]
  | .setn _ | .setceil _ _ | .wpix _ _ _ _ | .clrpix | .ramp _ _ | .lookup _ _ | .encode | .rdout _ | .rdreg _ => []

/-- The LED record with these four bytes (R100); any other first byte is refused (R103, U5). -/
def readRecord (y b g r : Byte) : Except WireReject Instr :=
  if y = 0xE1#8 then .ok (.wireLedB1 b g r)
  else if y = 0xE2#8 then .ok (.wireLedB2 b g r)
  else if y = 0xE4#8 then .ok (.wireLedB4 b g r)
  else if y = 0xFF#8 then .ok (.wireLedB31 b g r)
  else .error .badBrightness

/-- `n` LED records, then the rest of the stream (R102: positional). -/
def readRecords : Nat → List Byte → Except WireReject (List Instr × List Byte)
  | 0, bs => .ok ([], bs)
  | n + 1, y :: b :: g :: r :: bs =>
    match readRecord y b g r with
    | .error e => .error e
    | .ok i =>
      match readRecords n bs with
      | .error e => .error e
      | .ok (is, rest) => .ok (i :: is, rest)
  | _ + 1, _ => .error .tooShort

/-- The reader of the stream that R102 and R108 describe: it must know `NPIX` to cut the stream. -/
def readFrame (n : Nat) (bs : List Byte) : Except WireReject (List Instr) :=
  if bs.take 4 = wireBytes .wireStart then
    match readRecords n (bs.drop 4) with
    | .error e => .error e
    | .ok (is, rest) =>
      if rest = List.replicate (n / 2 / 8 + 1) 0xFF#8 then
        .ok (.wireStart :: is ++ List.replicate (n / 2 / 8 + 1) .wireEnd)
      else .error .badEndFrame
  else .error .badStartFrame

/-! ## The encoder -/

/-- The word of an instruction, bits numbered as the opcode table numbers them: a command's 64 bits (R92), or a
wire format's 32 or 8 bits, first byte of the stream leftmost (R99 to R101), zero above. -/
def encode : Instr → Wide
  | .setn n => pack 0x01 0 n 0
  | .setceil ch c => pack 0x02 (0#6 ++ ch) c 0
  | .wpix i r g b => pack 0x03 0 i (0#8 ++ r ++ g ++ b)
  | .clrpix => pack 0x04 0 0 0
  | .ramp l c => pack 0x10 l c 0
  | .lookup l c => pack 0x11 l c 0
  | .encode => pack 0x20 0 0 0
  | .rdout j => pack 0x21 0 0 j
  | .rdreg num => pack 0x30 num 0 0
  | .wireStart => 0
  | .wireLedB1 b g r => pack 0 0 0 (0xE1#8 ++ b ++ g ++ r)
  | .wireLedB2 b g r => pack 0 0 0 (0xE2#8 ++ b ++ g ++ r)
  | .wireLedB4 b g r => pack 0 0 0 (0xE4#8 ++ b ++ g ++ r)
  | .wireLedB31 b g r => pack 0 0 0 (0xFF#8 ++ b ++ g ++ r)
  | .wireEnd => 0xFF

/-- A four-byte wire format from its 32 bits, first byte leftmost: the start frame or a record (R99, R100). -/
def readWire32 (v : Word) : Except WireReject Instr :=
  if v = 0#32 then .ok .wireStart
  else readRecord (v.extractLsb' 24 8) (v.extractLsb' 16 8) (v.extractLsb' 8 8) (v.extractLsb' 0 8)

/-- What the decoders read from `nbits` bits of value `w`: above 32 bits a command word (R90), up to 32 bits a
four-byte wire format, up to 8 bits a byte of the end frame (log 8). -/
def decodeTableWord (nbits w : Nat) : Option Instr :=
  if nbits ≤ 8 then
    if w % 2 ^ nbits = 0xFF then some .wireEnd else none
  else if nbits ≤ 32 then
    match readWire32 (BitVec.ofNat 32 (w % 2 ^ nbits)) with
    | .ok i => some i
    | .error _ => none
  else
    match decode (BitVec.ofNat 64 (w % 2 ^ nbits)) with
    | .ok i => some i
    | .error _ => none

end Sys2Proof
end

