-- ==== Sys2Proof/Config.lean ====
section
/-! DEFINITION. The implementation parameters of R7 and the open parameters of 92_eei_decisions.md. -/

namespace Sys2Proof

/-- A reading of the source's `round( )` in the cubic region: the bias added before the last two
divisions by `inR`. 92_eei_decisions.md D10 names three readings, all of which satisfy the laws of R156. `offSquared` is R154's own and the default. -/
inductive RampRounding where
  /-- bias `off * off`, R154 (log 2) -/
  | offSquared
  /-- no bias: truncation (D10, first alternative) -/
  | truncate
  /-- bias `inR * inR / 2`: round half up (D10, second alternative) -/
  | halfUp
deriving DecidableEq, Repr

/-- The body of `Ramp` in its cubic region, the part of the function the source does not settle. R161, D10 and U1 make
`Ramp` a field of the configuration with R155 as its default body: a formula with one of the readings D10 names, or any
values at all, by key and level. A table is plain data, so any `Ramp` that satisfies the laws of R156 is expressible: the
laws settle every other value (level 0, the linear region, and that the ceiling matters through its key alone). -/
inductive RampBody where
  /-- R154 with this reading of `round` -/
  | formula (rounding : RampRounding)
  /-- row `k - 255` is the table of key `k`; entries below the cutoff are not read (log 2) -/
  | table (rows : Vector RampTable 7651)
deriving DecidableEq, Repr

/-- What a platform fixes (R7): constant while the machine runs and across reset (R282). -/
structure Config where
  /-- `PIX_CAP`, the largest pixel count the pixel store holds (R7, D5: OPEN, 0..65535) -/
  pixCap : Half
  /-- the body of `Ramp` (R161, D10, U1) -/
  rampBody : RampBody
deriving DecidableEq, Repr

/-- The defaults of 92_eei_decisions.md: `PIX_CAP` = 65535, the ramp body of R155. -/
def Config.default : Config := ⟨65535, .formula .offSquared⟩

/-- `HW_MAX` = 0x1EE1 = 7905 (R7). -/
def Config.hwMax : Half := 0x1EE1

/-- `MIN_CEIL` = 255 (R7). -/
def Config.minCeil : Half := 255

/-- `CACHE_SLOTS` = 6 (R7, D12). -/
def Config.cacheSlots : Nat := 6

/-- The colours of the host's Spectrum table inside [380, 781): not in the source (U7, N10), so nothing is
known of them. HOST SIDE ONLY; no definition of the block reads it (log 13). -/
opaque Config.spectrumOpen : Half → Color

/-- The description of a Solid of this colour: not given, not even whether it prints the colour (R129, N12; log 14).
HOST SIDE ONLY. -/
opaque Config.solidTextOpen : Color → String

/-- The description of a Spectrum that is not rotated: not given (R129, N12; log 14). HOST SIDE ONLY. -/
opaque Config.spectrumTextOpen : String

/-- The description of a TiledRepeat of this fragment: not given (R129, N12; log 14). HOST SIDE ONLY. -/
opaque Config.tiledRepeatTextOpen : List Color → String

end Sys2Proof
end

