-- ==== Sys2Proof/Machine/State.lean ====
section
/-! DEFINITION. The state of the block as plain data (R20), its faults and refusals, and the state after
reset (R38). -/

namespace Sys2Proof.Machine

/-- A byte store: (address, byte) cells, addresses strictly rising, no cell holding 00, which is what an unlisted
address reads as. Used for the byte view of `PIX` (R61) and for `OUT` (R63). -/
abbrev Memory := List Host.Cell

/-- An entry of the ramp cache: a normalized ceiling and the table made for it (R33). -/
structure CacheEntry where
  key : Half
  table : RampTable
deriving DecidableEq, Repr

/-- What `CacheAccess` returns, with the cache it leaves (R172). -/
structure CacheResult where
  hit : Bool
  table : RampTable
  cache : List CacheEntry
deriving DecidableEq, Repr

/-- The three response flags (R23, R96). -/
structure HitFlags where
  hitR : Bool
  hitG : Bool
  hitB : Bool
deriving DecidableEq, Repr

/-- One input of the host: a command word presented at the port (R90), or the reset input (R280). -/
inductive PortEvent where
  | command (w : Wide)
  | reset
deriving DecidableEq, Repr

/-- The block's state: the tuple of R20, the last response word (R96), the host's pending inputs, and the
parameters, which are configuration and never change (R37, R282). -/
structure State where
  /-- the parameters of R7; not state of the block (R37), carried so that statements hold for every value (log 1) -/
  cfg : Config
  /-- `NPIX`, register 0 (R25) -/
  npix : Half
  /-- `CEILR`, register 1, raw (R26) -/
  ceilR : Half
  /-- `CEILG`, register 2, raw (R26) -/
  ceilG : Half
  /-- `CEILB`, register 3, raw (R26) -/
  ceilB : Half
  /-- `PIX`, the pixel store, in the byte view of R61 (R32) -/
  pix : Memory
  /-- `CACHE`, most recently used first (R33) -/
  cache : List CacheEntry
  /-- `OUT`, the output frame store (R35, R63) -/
  out : Memory
  /-- `OUTLEN`, register 4, 19 bits (R27) -/
  outlen : BitVec 19
  /-- `STATUS`, register 5: bit 0 is `ERR` (R28) -/
  status : BitVec 1
  /-- `CAUSE`, register 6, bits 7:0 (R29) -/
  cause : Byte
  /-- the response to the last command, none if none was answered since reset (R96, R281; log 5) -/
  response : Option Wide
  /-- the host's inputs the block has not taken yet, oldest first (R70; log 4) -/
  port : List PortEvent
deriving DecidableEq, Repr

/-- The machine never stops: in every state every 64-bit word is answered, normally or by a fault RESPONSE, and
the block goes on (R255, R294). So no reason to stop exists and this type has no constructor: nobody raises one,
which is safe and unsafe to nobody. The block's own faults are `Cause` and `raiseFault` (R251, R254). -/
inductive Fault
deriving DecidableEq, Repr

/-- Reasons to refuse an instruction. -/
inductive Refusal where
  /-- An instruction without a meaning yet, raised by an arm of `exec` only; no arm raises it now. Safe: the model
  stops where the block goes on. -/
  | notModelled (mnemonic : String)
deriving DecidableEq, Repr

/-- The state after reset (R38, R280): every register 0, no pixels, empty cache, no frame; the parameters at their
defaults (R7), no command answered (log 5) and no input pending (log 4). -/
def State.reset : State where
  cfg := Config.default
  npix := 0
  ceilR := 0
  ceilG := 0
  ceilB := 0
  pix := []
  cache := []
  out := []
  outlen := 0
  status := 0
  cause := 0
  response := none
  port := []

end Sys2Proof.Machine
end

