-- ==== Sys2Proof/Machine/Flags.lean ====
section
/-! DEFINITION. The response word RSP64 and its flags (R23, R96), the cause codes (R251) and the sticky fault
flag (R28). -/

namespace Sys2Proof.Machine

/-- The cause code (R251). -/
def causeCode : Cause → Byte
  | .illegalOpcode => 1
  | .reservedField => 2
  | .indexRange => 3
  | .badRegister => 4
  | .capacity => 5

/-- No `HIT` bit set: the flags of a command that gives none (R97). -/
def noHits : HitFlags := ⟨false, false, false⟩

/-- RSP64: ERR, 20 zero bits, HITB, HITG, HITR, CAUSE, VALUE (R96). -/
def responseWord (err : Bool) (f : HitFlags) (cause : Byte) (value : Word) : Wide :=
  BitVec.ofBool err ++ 0#20 ++ BitVec.ofBool f.hitB ++ BitVec.ofBool f.hitG ++ BitVec.ofBool f.hitR ++ cause ++ value

/-- The normal response, `respond OK(value, flags)` (R96). -/
def okWord (value : Word) (f : HitFlags) : Wide := responseWord false f 0 value

/-- The fault response (R96, R254). -/
def faultWord (c : Cause) : Wide := responseWord true noHits (causeCode c) 0

/-- `ERR` of a response word, bit 63 (R96). -/
def errBit (x : Wide) : Bool := x.getLsbD 63

/-- `HITB` of a response word, bit 42 (R96). -/
def hitBBit (x : Wide) : Bool := x.getLsbD 42

/-- `HITG` of a response word, bit 41 (R96). -/
def hitGBit (x : Wide) : Bool := x.getLsbD 41

/-- `HITR` of a response word, bit 40 (R96). -/
def hitRBit (x : Wide) : Bool := x.getLsbD 40

/-- `CAUSE` of a response word, bits 39:32 (R96). -/
def causeField (x : Wide) : Byte := x.extractLsb' 32 8

/-- `VALUE` of a response word, bits 31:0 (R96). -/
def valueField (x : Wide) : Word := x.extractLsb' 0 32

/-- `STATUS.ERR` is 1: some command has faulted since reset (R28). -/
def State.err (s : State) : Bool := s.status == 1#1

end Sys2Proof.Machine
end

