-- ==== Sys2Proof/Machine/RampCurve.lean ====
section
/-! DEFINITION. The ramp function (41_ramp_function.md): normalization, the curve, the 256-entry table.
Intermediates are natural numbers; none exceeds 32 bits, so nothing wraps (R159, R265). -/

namespace Sys2Proof.Machine

/-- `Normalize(c)` (R150): 0 is tested first. -/
def normalizeCeil (c : Half) : Half :=
  if c = 0 ∨ Config.hwMax < c then Config.hwMax
  else if c < Config.minCeil then Config.minCeil
  else c

/-- The linear cutoff of a key, `cut = (k + 50) / 100` (R152). -/
def linearCut (k : Nat) : Nat := (k + 50) / 100

/-- The bias before the last two divisions, for `inR` (R154; the other two readings: D10). -/
def roundingBias (m : RampRounding) (inR : Nat) : Nat :=
  match m with
  | .offSquared => (inR / 2) * (inR / 2)
  | .truncate => 0
  | .halfUp => inR * inR / 2

/-- `inR = 255 - cut`, never 0 for a key (R154, R158(a)). -/
def inRange (k : Nat) : Nat := 255 - linearCut k

/-- `outR = k - cut` (R154, R158(a)). -/
def outRange (k : Nat) : Nat := k - linearCut k

/-- `off = inR / 2` (R154, R158(a)). -/
def cubeOffset (k : Nat) : Nat := inRange k / 2

/-- `y = (x*x*x + off) / inR` with `x = level - cut` (R154, R158(b)). -/
def cubeQuotient (level k : Nat) : Nat :=
  let x := level - linearCut k
  (x * x * x + cubeOffset k) / inRange k

/-- The cubic region, for `level >= cut` (R154; its values at the two ends and just above the cutoff: R158(c) to (e)). -/
def cubicRamp (m : RampRounding) (level k : Nat) : Nat :=
  linearCut k + (cubeQuotient level k * outRange k + roundingBias m (inRange k)) / inRange k / inRange k

/-- The entry of a table of values by key and level; keys lie in 255..7905 and levels in 0..255. -/
def tabulatedRamp (rows : Vector RampTable 7651) (level k : Nat) : Nat :=
  if h : k - 255 < 7651 ∧ level < 256 then ((rows.get ⟨k - 255, h.1⟩).get ⟨level, h.2⟩).toNat else 0

/-- The cubic region of a body, for `level >= cut` (R154, R161). -/
def cubicRegion (body : RampBody) (level k : Nat) : Nat :=
  match body with
  | .formula m => cubicRamp m level k
  | .table rows => tabulatedRamp rows level k

/-- The curve for a key `k` (R151 to R155): black, the linear region, the cubic region. -/
def rampNat (body : RampBody) (level k : Nat) : Nat :=
  if level = 0 then 0
  else if level < linearCut k then level
  else cubicRegion body level k

/-- `Ramp(level, c)` (R155). -/
def ramp (cfg : Config) (level : Byte) (c : Half) : Half :=
  BitVec.ofNat 16 (rampNat cfg.rampBody level.toNat (normalizeCeil c).toNat)

/-- `RampTable(k)`: `T[l] = Ramp(l, k)` for `l` = 0..255 (R157, R174). -/
def rampTable (cfg : Config) (k : Half) : RampTable :=
  ⟨⟨(List.range 256).map fun l => ramp cfg (BitVec.ofNat 8 l) k⟩, by simp⟩

/-- The body that has the values of `f` at every key and level (R161). -/
def tabulate (f : Byte → Half → Half) : RampBody :=
  .table (Vector.ofFn fun k : Fin 7651 => Vector.ofFn fun l : Fin 256 =>
    f (BitVec.ofNat 8 l) (BitVec.ofNat 16 (k + 255)))

/-- `T[l]`, entry `l` of a table (R11, R62). -/
def tableEntry (t : RampTable) (l : Byte) : Half := t[l.toNat]'l.isLt

end Sys2Proof.Machine
end

