-- ==== Sys2Proof/Machine/Ops.lean ====
section
/-! DEFINITION. The named operations over the stores and registers: byte stores, responding, taking a fault,
the pixel store, the ramp cache, the output frame, the port and reset. -/

namespace Sys2Proof.Machine

/-! ## Byte stores -/

/-- What an address with no cell reads as (log 9, log 10). -/
def unlistedByte : Byte := 0x00

/-- The byte at an address: `MemRead(space, a, 1)` (R11). -/
def memRead : Memory → Nat → Byte
  | [], _ => unlistedByte
  | (b, v) :: m, a => if b = a then v else memRead m a

/-- Put a byte at an address, `MemWrite(space, a, 1, v)` (R11), keeping the canonical form. -/
def memWrite : Memory → Nat → Byte → Memory
  | [], a, v => if v = unlistedByte then [] else [(a, v)]
  | (b, w) :: m, a, v =>
    if a < b then (if v = unlistedByte then (b, w) :: m else (a, v) :: (b, w) :: m)
    else if a = b then (if v = unlistedByte then m else (a, v) :: m)
    else (b, w) :: memWrite m a v

/-- The store that holds these bytes from address `a` on and nothing else. -/
def memOfBytes : Nat → List Byte → Memory
  | _, [] => []
  | a, v :: vs => if v = unlistedByte then memOfBytes (a + 1) vs else (a, v) :: memOfBytes (a + 1) vs

/-- Every cell lies at `lo` or above, addresses rise strictly, and no cell holds the unlisted byte. -/
def memWfFrom : Nat → Memory → Bool
  | _, [] => true
  | lo, (a, v) :: m => decide (lo ≤ a) && decide (v ≠ unlistedByte) && memWfFrom (a + 1) m

/-- The canonical form of a byte store. -/
def Memory.wf (m : Memory) : Bool := memWfFrom 0 m

/-! ## Ending a command -/

/-- `respond OK(value, flags)`: the command ends with the normal response (R96). -/
def respondOk (s : State) (value : Word) (f : HitFlags) : State :=
  { s with response := some (okWord value f) }

/-- `raise Fault(cause)`: the ONE way a command is refused. `STATUS.ERR` becomes 1, `CAUSE` keeps the first
cause, the response carries this one, nothing else changes; there is no handler, and the next command is
accepted (R254, R255). -/
def raiseFault (s : State) (c : Cause) : State :=
  { s with
    status := 1
    cause := if s.cause = 0 then causeCode c else s.cause
    response := some (faultWord c) }

/-! ## The pixel store (R32, R61) -/

/-- `PIX[i]` through the byte view of R61. -/
def pixelAt (m : Memory) (i : Nat) : Color :=
  ⟨memRead m (3 * i), memRead m (3 * i + 1), memRead m (3 * i + 2)⟩

/-- `PIX[i] <- c` through the byte view of R61. -/
def pixelWrite (m : Memory) (i : Nat) (c : Color) : Memory :=
  memWrite (memWrite (memWrite m (3 * i) c.r) (3 * i + 1) c.g) (3 * i + 2) c.b

/-- The store whose pixels are all black: no byte differs from 00 (R220, R223). -/
def blackStore : Memory := []

/-- `PIX[0 .. NPIX-1]`, in order (R12, R32). -/
def State.pixels (s : State) : List Color := (List.range s.npix.toNat).map (pixelAt s.pix)

/-- `NPIX <- n`, all `n` pixels black, the held frame dropped (R220, R27, R35). -/
def setPixelCount (s : State) (n : Half) : State :=
  { s with npix := n, pix := blackStore, out := [], outlen := 0 }

/-- `PIX[i] <- c` in the state (R222). -/
def setPixel (s : State) (i : Nat) (c : Color) : State := { s with pix := pixelWrite s.pix i c }

/-- Every pixel black (R223). -/
def clearPixels (s : State) : State := { s with pix := blackStore }

/-! ## The ramp cache (42_ramp_cache.md) -/

/-- `CACHE` in the state (R172 is its only writer). -/
def setCache (s : State) (c : List CacheEntry) : State := { s with cache := c }

/-- `CacheAccess(c)` (R172): a hit moves the entry to rank 0 (R173); a miss computes all 256 entries, drops the
least recently used entry if the cache is full, and installs the new one at rank 0 (R174). -/
def cacheAccess (cfg : Config) (cache : List CacheEntry) (c : Half) : CacheResult :=
  let k := normalizeCeil c
  match cache.find? (fun e => e.key == k) with
  | some e => ⟨true, e.table, e :: cache.eraseP (fun e => e.key == k)⟩
  | none =>
    let t := rampTable cfg k
    ⟨false, t, ⟨k, t⟩ :: (if cache.length = Config.cacheSlots then cache.dropLast else cache)⟩

/-- The keys of the cache in rank order (R30, R178). -/
def cacheKeys (cache : List CacheEntry) : List Half := cache.map CacheEntry.key

/-! ## The output frame (43_wire_encoder.md) -/

/-- `FrameLen(n) = 4*(n + 1) + n/2/8 + 1` (R190). -/
def frameLen (n : Nat) : Nat := 4 * (n + 1) + n / 2 / 8 + 1

/-- The frame replaces `OUT` whole and `OUTLEN` is its length (R202, R35). -/
def setFrame (s : State) (frame : List Byte) (len : Nat) : State :=
  { s with out := memOfBytes 0 frame, outlen := BitVec.ofNat 19 len }

/-! ## The port and reset -/

/-- The host presents inputs after those already pending (R70: taken in the order the host issues them). -/
def presentEvents (s : State) (es : List PortEvent) : State := { s with port := s.port ++ es }

/-- The word the block takes next is `w` (log 4). -/
def presentNext (s : State) (w : Wide) : State := { s with port := .command w :: s.port }

/-- The reset input: the block's state becomes the reset state (R280); the parameters survive (R282) and so do
the inputs the host has not presented yet. No response is produced (R281). -/
def resetInput (s : State) : State := { State.reset with cfg := s.cfg, port := s.port }

end Sys2Proof.Machine
end

