-- ==== Sys2Proof/Machine/Operands.lean ====
section
/-! DEFINITION. The operand forms: a register number (R24, R226), a ceiling channel (R221), a pixel index (R222),
an output byte index (R206), a pixel count (R220). -/

namespace Sys2Proof.Machine

/-- `CKEYr`: bit 31 and the key of the entry at rank `r`, or 0 (R30). -/
def cacheKeyRegister (cache : List CacheEntry) (r : Nat) : Word :=
  match cache[r]? with
  | some e => 0x8000#16 ++ e.key
  | none => 0

/-- The register with this number, zero-extended to 32 bits; 15 to 255 are not registers (R24, R226). -/
def readRegister (s : State) (num : Byte) : Option Word :=
  match num.toNat with
  | 0 => some (s.npix.setWidth 32)
  | 1 => some (s.ceilR.setWidth 32)
  | 2 => some (s.ceilG.setWidth 32)
  | 3 => some (s.ceilB.setWidth 32)
  | 4 => some (s.outlen.setWidth 32)
  | 5 => some (s.status.setWidth 32)
  | 6 => some (s.cause.setWidth 32)
  | 7 => some (BitVec.ofNat 32 s.cache.length)
  | 8 => some (cacheKeyRegister s.cache 0)
  | 9 => some (cacheKeyRegister s.cache 1)
  | 10 => some (cacheKeyRegister s.cache 2)
  | 11 => some (cacheKeyRegister s.cache 3)
  | 12 => some (cacheKeyRegister s.cache 4)
  | 13 => some (cacheKeyRegister s.cache 5)
  | 14 => some (s.cfg.pixCap.setWidth 32)
  | _ => none

/-- The state with the raw ceiling of channel 0 R, 1 G, 2 B set; channel 3 is reserved (R221, R26). -/
def setCeiling (s : State) (ch : BitVec 2) (c : Half) : Option State :=
  if ch = 0#2 then some { s with ceilR := c }
  else if ch = 1#2 then some { s with ceilG := c }
  else if ch = 2#2 then some { s with ceilB := c }
  else none

/-- The index of an existing pixel, `i < NPIX` (R222, R32). -/
def pixelIndex (s : State) (i : Half) : Option Nat := if i < s.npix then some i.toNat else none

/-- The byte of the held frame at `j < OUTLEN` (R206, R35). -/
def frameByte (s : State) (j : Word) : Option Byte :=
  if j.toNat < s.outlen.toNat then some (memRead s.out j.toNat) else none

/-- A pixel count the store can hold, `n <= PIX_CAP` (R220, R25). -/
def countFits (s : State) (n : Half) : Bool := decide (n ≤ s.cfg.pixCap)

end Sys2Proof.Machine
end

