-- ==== Sys2Proof/Machine/ConfigCommands.lean ====
section
/-! DEFINITION. The configuration commands `SETN` and `SETCEIL` (R220, R221). -/

namespace Sys2Proof.Machine

/-- `SETN n` (R220). -/
def execSetn (n : Half) (s : State) : Host.Outcome State Fault Refusal :=
  if countFits s n then .next (respondOk (setPixelCount s n) 0 noHits)
  else .next (raiseFault s .capacity)

/-- `SETCEIL ch, c` (R221). -/
def execSetceil (ch : BitVec 2) (c : Half) (s : State) : Host.Outcome State Fault Refusal :=
  match setCeiling s ch c with
  | some s' => .next (respondOk s' 0 noHits)
  | none => .next (raiseFault s .reservedField)

end Sys2Proof.Machine
end

