-- ==== Sys2Proof/Machine/WireEncoder.lean ====
section
/-! DEFINITION. The wire encoder as a function (R190 to R201): brightness selection, colour bytes, the record, the
frame as wire formats and as bytes. -/

namespace Sys2Proof.Machine

/-- The brightness value chosen from all three ramped values, thresholds inclusive (R195). -/
def selectBrightness (r g b : Half) : Brightness :=
  if r ≤ 255 ∧ g ≤ 255 ∧ b ≤ 255 then .br1
  else if r ≤ 511 ∧ g ≤ 511 ∧ b ≤ 511 then .br2
  else if r ≤ 1023 ∧ g ≤ 1023 ∧ b ≤ 1023 then .br4
  else .br31

/-- The colour byte `q(v)`: the quotient with its rounding, clipped to 8 bits by saturation (R197, R199). For
`br` = 2 it is truncated, as R197 and R199 say (log 3). -/
def colourByte (br : Brightness) (v : Half) : Byte :=
  match br with
  | .br1 => BitVec.ofNat 8 v.toNat
  | .br2 => BitVec.ofNat 8 (v.toNat / 2)
  | .br4 => BitVec.ofNat 8 (min 255 ((v.toNat + 2) / 4))
  | .br31 => BitVec.ofNat 8 (min 255 ((v.toNat + 15) / 31))

/-- `Record(r, g, b)`, as the wire format it is (R198, R199, R100). -/
def record (r g b : Half) : Instr :=
  let br := selectBrightness r g b
  match br with
  | .br1 => .wireLedB1 (colourByte br b) (colourByte br g) (colourByte br r)
  | .br2 => .wireLedB2 (colourByte br b) (colourByte br g) (colourByte br r)
  | .br4 => .wireLedB4 (colourByte br b) (colourByte br g) (colourByte br r)
  | .br31 => .wireLedB31 (colourByte br b) (colourByte br g) (colourByte br r)

/-- The record of one pixel: each channel through its own table (R194). -/
def pixelRecord (tR tG tB : RampTable) (p : Color) : Instr :=
  record (tableEntry tR p.r) (tableEntry tG p.g) (tableEntry tB p.b)

/-- The number of end-frame bytes, `n/2/8 + 1` (R190, R200). -/
def endFrameLen (n : Nat) : Nat := n / 2 / 8 + 1

/-- The wire formats of a frame in stream order: start frame, records, end frame (R98, R192, R201). -/
def frameItems (pix : List Color) (tR tG tB : RampTable) : List Instr :=
  .wireStart :: pix.map (pixelRecord tR tG tB) ++ List.replicate (endFrameLen pix.length) .wireEnd

/-- `EncodeFrame(pix, TR, TG, TB)`: the bytes of the frame (R201). -/
def encodeFrame (pix : List Color) (tR tG tB : RampTable) : List Byte :=
  (frameItems pix tR tG tB).flatMap wireBytes

end Sys2Proof.Machine
end

