-- ==== Sys2Proof/Machine/EncoderCommands.lean ====
section
/-! DEFINITION. The encoder commands `ENCODE` (R202) and `RDOUT` (R206). -/

namespace Sys2Proof.Machine

/-- `ENCODE`: three cache accesses in the order red, green, blue, before any pixel (R204), then the frame of the
current pixels into `OUT` (R202). -/
def execEncode (s : State) : Host.Outcome State Fault Refusal :=
  let aR := cacheAccess s.cfg s.cache s.ceilR
  let aG := cacheAccess s.cfg aR.cache s.ceilG
  let aB := cacheAccess s.cfg aG.cache s.ceilB
  let frame := encodeFrame s.pixels aR.table aG.table aB.table
  let len := frameLen s.npix.toNat
  .next (respondOk (setFrame (setCache s aB.cache) frame len) (BitVec.ofNat 32 len) ⟨aR.hit, aG.hit, aB.hit⟩)

/-- `RDOUT j`: one byte of the held frame (R206). -/
def execRdout (j : Word) (s : State) : Host.Outcome State Fault Refusal :=
  match frameByte s j with
  | some v => .next (respondOk s (v.setWidth 32) noHits)
  | none => .next (raiseFault s .indexRange)

end Sys2Proof.Machine
end

