-- ==== Sys2Proof/Machine/PixelCommands.lean ====
section
/-! DEFINITION. The pixel commands `WPIX` and `CLRPIX` (R222, R223). -/

namespace Sys2Proof.Machine

/-- `WPIX i, r, g, b` (R222). -/
def execWpix (i : Half) (r g b : Byte) (s : State) : Host.Outcome State Fault Refusal :=
  match pixelIndex s i with
  | some p => .next (respondOk (setPixel s p ⟨r, g, b⟩) 0 noHits)
  | none => .next (raiseFault s .indexRange)

/-- `CLRPIX` (R223). -/
def execClrpix (s : State) : Host.Outcome State Fault Refusal :=
  .next (respondOk (clearPixels s) 0 noHits)

end Sys2Proof.Machine
end

