-- ==== Sys2Proof/Machine/RampCommands.lean ====
section
/-! DEFINITION. The ramp and cache commands `RAMP` (R160) and `LOOKUP` (R176). -/

namespace Sys2Proof.Machine

/-- `RAMP l, c`: the ramp function, without touching the cache (R160). -/
def execRamp (l : Byte) (c : Half) (s : State) : Host.Outcome State Fault Refusal :=
  .next (respondOk s ((ramp s.cfg l c).setWidth 32) noHits)

/-- `LOOKUP l, c`: one cache access, entry `l` of the table, `HITR` = hit (R176). -/
def execLookup (l : Byte) (c : Half) (s : State) : Host.Outcome State Fault Refusal :=
  let a := cacheAccess s.cfg s.cache c
  .next (respondOk (setCache s a.cache) ((tableEntry a.table l).setWidth 32) ⟨a.hit, false, false⟩)

end Sys2Proof.Machine
end

