-- ==== Sys2Proof/Machine/RegisterCommands.lean ====
section
/-! DEFINITION. The register command `RDREG` (R226). -/

namespace Sys2Proof.Machine

/-- `RDREG num`: one register, zero-extended (R226). -/
def execRdreg (num : Byte) (s : State) : Host.Outcome State Fault Refusal :=
  match readRegister s num with
  | some v => .next (respondOk s v noHits)
  | none => .next (raiseFault s .badRegister)

end Sys2Proof.Machine
end

