-- ==== Sys2Proof/Machine/WireFormats.lean ====
section
/-! DEFINITION. The six wire-format rows as inputs of the block. "The wire rows are not commands the block accepts;
they are the encodings it emits" (R108): `ENCODE` emits them (WireEncoder.lean), and a host that presents one at
the command port presents a word whose `op` is unassigned, which the block refuses with `ILLEGAL_OPCODE`
(R94(a), R254; log 7). -/

namespace Sys2Proof.Machine

/-- `WIRE.START` presented as a command: `op` = 0x00, unassigned (R94(a)). -/
def execWireStart (s : State) : Host.Outcome State Fault Refusal := .next (raiseFault s .illegalOpcode)

/-- `WIRE.LED.B1` presented as a command (R94(a)). -/
def execWireLedB1 (_b _g _r : Byte) (s : State) : Host.Outcome State Fault Refusal :=
  .next (raiseFault s .illegalOpcode)

/-- `WIRE.LED.B2` presented as a command (R94(a)). -/
def execWireLedB2 (_b _g _r : Byte) (s : State) : Host.Outcome State Fault Refusal :=
  .next (raiseFault s .illegalOpcode)

/-- `WIRE.LED.B4` presented as a command (R94(a)). -/
def execWireLedB4 (_b _g _r : Byte) (s : State) : Host.Outcome State Fault Refusal :=
  .next (raiseFault s .illegalOpcode)

/-- `WIRE.LED.B31` presented as a command (R94(a)). -/
def execWireLedB31 (_b _g _r : Byte) (s : State) : Host.Outcome State Fault Refusal :=
  .next (raiseFault s .illegalOpcode)

/-- `WIRE.END` presented as a command (R94(a)). -/
def execWireEnd (s : State) : Host.Outcome State Fault Refusal := .next (raiseFault s .illegalOpcode)

end Sys2Proof.Machine
end

