-- ==== Sys2Proof/Machine/Dispatch.lean ====
section
/-! DEFINITION. The meaning of each instruction: one arm per row of the opcode table. -/

namespace Sys2Proof.Machine

def exec (i : Instr) (s : State) : Host.Outcome State Fault Refusal :=
  match i with
  | .setn n => Sys2Proof.Machine.execSetn n s
  | .setceil ch c => Sys2Proof.Machine.execSetceil ch c s
  | .wpix p r g b => Sys2Proof.Machine.execWpix p r g b s
  | .clrpix => Sys2Proof.Machine.execClrpix s
  | .ramp l c => Sys2Proof.Machine.execRamp l c s
  | .lookup l c => Sys2Proof.Machine.execLookup l c s
  | .encode => Sys2Proof.Machine.execEncode s
  | .rdout j => Sys2Proof.Machine.execRdout j s
  | .rdreg num => Sys2Proof.Machine.execRdreg num s
  | .wireStart => Sys2Proof.Machine.execWireStart s
  | .wireLedB1 b g r => Sys2Proof.Machine.execWireLedB1 b g r s
  | .wireLedB2 b g r => Sys2Proof.Machine.execWireLedB2 b g r s
  | .wireLedB4 b g r => Sys2Proof.Machine.execWireLedB4 b g r s
  | .wireLedB31 b g r => Sys2Proof.Machine.execWireLedB31 b g r s
  | .wireEnd => Sys2Proof.Machine.execWireEnd s

end Sys2Proof.Machine
end

