-- ==== Sys2Proof/Machine/Port.lean ====
section
/-! DEFINITION. Taking one input from the command port: decode and execute a word (R95), or reset (R280). -/

namespace Sys2Proof.Machine

/-- Decode a command word and perform it; a word that is no command is refused with its cause (R94, R95). -/
def runWord (w : Wide) (s : State) : Host.Outcome State Fault Refusal :=
  match decode w with
  | .ok i => exec i s
  | .error c => .next (raiseFault s c)

/-- Take one input of the host. -/
def takeEvent (e : PortEvent) (s : State) : Host.Outcome State Fault Refusal :=
  match e with
  | .command w => runWord w s
  | .reset => .next (resetInput s)

/-- One transition: the oldest pending input is taken off the port and carried out to completion (R70); with none
pending the block waits and nothing changes (R22, R257; log 4). -/
def blockStep (s : State) : Host.Outcome State Fault Refusal :=
  match s.port with
  | [] => .next s
  | e :: rest => takeEvent e { s with port := rest }

/-- The low `nbits` bits of `w` as the word the host presents next (log 4, log 8). -/
def presentBits (s : State) (nbits w : Nat) : State := presentNext s (BitVec.ofNat 64 (w % 2 ^ nbits))

end Sys2Proof.Machine
end

