-- ==== Sys2Proof/Machine/Step.lean ====
section
/-! DEFINITION. One step of the machine, and placing the word the next step takes. -/

namespace Sys2Proof.Machine

/-- One step: the block takes one input from its port (R70, R281). -/
def step (s : State) : Host.Outcome State Fault Refusal := blockStep s

/-- The state whose very next step takes the instruction with these bits: the block fetches nothing, so the word is
the next one the host presents (R22, R70; log 4). -/
def State.withFetchWord (s : State) (nbits w : Nat) : State := presentBits s nbits w

end Sys2Proof.Machine
end

