-- ==== Sys2Proof/Machine/Pattern.lean ====
section
/-! DEFINITION. The HOST's pattern engine (40_host_pattern_engine.md): the agent outside the block that decides what
the host writes into the pixel store (R5, R120). No definition of the block uses this file, and none of its data is
state of the block (R37). -/

namespace Sys2Proof.Machine

mutual

/-- A pattern node: exactly five variants, a closed set; a tree, not a graph (R122, R130). -/
inductive Pattern where
  /-- one colour everywhere (R124) -/
  | solid (c : Color)
  /-- a rainbow along the buffer, no state (R125) -/
  | spectrum
  /-- a fragment repeated along the buffer (R126) -/
  | tiledRepeat (source : List Color)
  /-- a child shifted one place per `stepDuration` milliseconds (R127) -/
  | rotate (child : Pattern) (stepDuration : Nat)
  /-- one child after the other, `durationPerChild` milliseconds each (R128) -/
  | cycle (children : PatternList) (durationPerChild : Nat)

/-- The children of a Cycle, of any length including 0 (R128, C7). -/
inductive PatternList where
  | nil
  | cons (p : Pattern) (ps : PatternList)

end

/-- What a render reports: "a nested, brace-delimited composition of variant names" (R129). The source gives no
text for most of them (N12), so a leaf keeps what it may print and `descriptionText` makes the text (log 14). -/
inductive Description where
  /-- an empty Cycle, the one literal the contract gives (R128) -/
  | emptyCycle
  | solid (c : Color)
  | spectrum
  | tiledRepeat (source : List Color)
  | rotate (child : Description)
deriving DecidableEq, Repr

/-- Why a host model refuses to render: `durationPerChild` = 0 has no meaning (R128, U8). -/
inductive RenderRefusal where
  | zeroCycleDuration
deriving DecidableEq, Repr

/-- The number of children of a Cycle. -/
def childCount : PatternList → Nat
  | .nil => 0
  | .cons _ ps => childCount ps + 1

/-- The child of a Cycle with this index, first child 0. -/
def childAt : PatternList → Nat → Option Pattern
  | .nil, _ => none
  | .cons p _, 0 => some p
  | .cons _ ps, n + 1 => childAt ps n

/-- `SpectrumColor(w)`: black outside [380, 781); inside, the open table (R125, U7). -/
def spectrumColor (w : Half) : Color :=
  if w < 380 ∨ 781 ≤ w then Color.black else Config.spectrumOpen w

/-- The wavelength at position `i` of a buffer of this length, `380 + (401*i)/length` (R125). -/
def spectrumWavelength (i length : Nat) : Half := BitVec.ofNat 16 (380 + 401 * i / length)

/-- The offset of Rotate: 0 when `stepDuration` is 0, else `(elapsedMs / stepDuration) mod length` (R127). -/
def rotateOffset (elapsedMs stepDuration length : Nat) : Nat :=
  if stepDuration = 0 then 0 else elapsedMs / stepDuration % length

/-- The child of Cycle that is shown, `(elapsedMs / durationPerChild) mod N` (R128). -/
def cycleIndex (elapsedMs durationPerChild n : Nat) : Nat := elapsedMs / durationPerChild % n

/-- `buffer[(i + offset) mod length] = scratch[i]` for every `i` in `[0, length)`; nothing is written when the
length is 0 (R127, D31). -/
def rotateInto (scratch buffer : List Color) (offset : Nat) : List Color :=
  (List.range buffer.length).foldl
    (fun b i => b.set ((i + offset) % buffer.length) (scratch.getD i Color.black)) buffer

/-- `buffer[i] = source[i mod srcLen]`; an empty source writes nothing (R126). -/
def tileInto (source buffer : List Color) : List Color :=
  if source.length = 0 then buffer
  else (List.range buffer.length).map fun i => source.getD (i % source.length) Color.black

/-- A buffer of this length, pre-cleared to black (R123). -/
def clearBuffer (length : Nat) : List Color := List.replicate length Color.black

mutual

/-- `render(buffer, elapsedMs)`: the buffer afterwards and the description (R122 to R129). -/
def render : Pattern → BitVec 32 → List Color → Except RenderRefusal (List Color × Description)
  | .solid c, _, buffer => .ok (buffer.map fun _ => c, .solid c)
  | .spectrum, _, buffer =>
    .ok ((List.range buffer.length).map fun i => spectrumColor (spectrumWavelength i buffer.length), .spectrum)
  | .tiledRepeat source, _, buffer => .ok (tileInto source buffer, .tiledRepeat source)
  | .rotate child stepDuration, elapsedMs, buffer =>
    match render child elapsedMs (clearBuffer buffer.length) with
    | .error e => .error e
    | .ok (scratch, d) =>
      .ok (rotateInto scratch buffer (rotateOffset elapsedMs.toNat stepDuration buffer.length), .rotate d)
  | .cycle children durationPerChild, elapsedMs, buffer =>
    if childCount children = 0 then .ok (buffer, .emptyCycle)
    else if durationPerChild = 0 then .error .zeroCycleDuration
    else renderChild children (cycleIndex elapsedMs.toNat durationPerChild (childCount children)) elapsedMs buffer

/-- Render the child with this index; a Cycle "delegates entirely to the selected child" (R128). -/
def renderChild : PatternList → Nat → BitVec 32 → List Color → Except RenderRefusal (List Color × Description)
  | .nil, _, _, buffer => .ok (buffer, .emptyCycle)
  | .cons p _, 0, elapsedMs, buffer => render p elapsedMs buffer
  | .cons _ ps, n + 1, elapsedMs, buffer => renderChild ps n elapsedMs buffer

end

/-- A name and its parts between braces, the format of R129. (The two characters are made from their codes.) -/
def braced (name parts : String) : String :=
  name ++ String.singleton (Char.ofNat 0x7B) ++ parts ++ String.singleton (Char.ofNat 0x7D)

/-- The description as text (R129): the two literals that a render can return, an empty Cycle and a rotated Spectrum,
and Rotate around its child's text otherwise; the texts of the other leaves are open (N12; log 14). -/
def descriptionText : Description → String
  | .emptyCycle => braced "Cycle" ""
  | .solid c => Config.solidTextOpen c
  | .spectrum => Config.spectrumTextOpen
  | .tiledRepeat source => Config.tiledRepeatTextOpen source
  | .rotate .spectrum => braced "Rotate" "Spectrum"
  | .rotate child => braced "Rotate" (descriptionText child)

/-- The render contract of R122: the buffer afterwards and the description string. -/
def renderText (p : Pattern) (elapsedMs : BitVec 32) (buffer : List Color) :
    Except RenderRefusal (List Color × String) :=
  match render p elapsedMs buffer with
  | .error e => .error e
  | .ok (out, d) => .ok (out, descriptionText d)

/-- `render_tick(nowMs)`: the caller pre-clears the buffer, then renders (R123, R134). -/
def renderTick (p : Pattern) (nowMs : BitVec 32) (pixelCount : Nat) : Except RenderRefusal (List Color × String) :=
  renderText p nowMs (clearBuffer pixelCount)

end Sys2Proof.Machine
end

