-- ==== Sys2Proof/Machine/HostAgent.lean ====
section
/-! DEFINITION. The HOST's commands: the pseudo-commands (R107), one tick and the
changes between ticks (R134), and the pattern hand-off (R133).
The host is an agent outside the block (R5, R261); it acts on the block only by presenting words at the port. -/

namespace Sys2Proof.Machine

/-! ## The sequences of commands -/

/-- `SETCEIL R, cR`; `SETCEIL G, cG`; `SETCEIL B, cB` (R105). -/
def setCeilingsCommands (cR cG cB : Half) : List Instr := [.setceil 0 cR, .setceil 1 cG, .setceil 2 cB]

/-- `SETMAX c`: one value for the three ceilings (R107, D9). -/
def setmaxCommands (c : Half) : List Instr := setCeilingsCommands c c c

/-- The `WPIX` commands that make `PIX` equal the buffer, from index `i` on: one for every pixel, black too, since what
`PIX` held before is not known (R105; log 25). -/
def setPixelsCommands : Nat → List Color → List Instr
  | _, [] => []
  | i, c :: cs => .wpix (BitVec.ofNat 16 i) c.r c.g c.b :: setPixelsCommands (i + 1) cs

/-- The `WPIX` commands of a tick, with the colours given, from index `i` on; positions left black may be skipped
(R134), and are (log 15). DESIGN CHOICE: R134 and R107 give these commands no order; here each position gets one, in
ascending order of index (log 26). -/
def writePixelCommands : Nat → List Color → List Instr
  | _, [] => []
  | i, c :: cs =>
    if c = Color.black then writePixelCommands (i + 1) cs
    else .wpix (BitVec.ofNat 16 i) c.r c.g c.b :: writePixelCommands (i + 1) cs

/-- `FILL r, g, b` for `NPIX` = `n`: every pixel written, black too (R107). -/
def fillCommands (n : Nat) (c : Color) : List Instr :=
  (List.range n).map fun i => .wpix (BitVec.ofNat 16 i) c.r c.g c.b

/-- `RDOUT 0` to `RDOUT len-1`, whole and in order (R107, R289). -/
def readOutCommands (len : Nat) : List Instr := (List.range len).map fun j => .rdout (BitVec.ofNat 32 j)

/-- The commands of a tick up to `ENCODE`, for a rendered buffer (R134 (1) to (3)). -/
def paintCommands (buffer : List Color) : List Instr := .clrpix :: writePixelCommands 0 buffer ++ [.encode]

/-- The commands of the source's call `encode(buffer, cR, cG, cB)` up to `ENCODE` (R105). -/
def encodeCallCommands (buffer : List Color) (cR cG cB : Half) : List Instr :=
  setCeilingsCommands cR cG cB ++ setPixelsCommands 0 buffer ++ [.encode]

/-- The inputs that present these commands, in order (R70). -/
def commandEvents (is : List Instr) : List PortEvent := is.map fun i => .command (encode i)

/-! ## Issuing commands and using their responses

How many `RDOUT`s the host issues depends on a response of the block, so these are exchanges and no fixed lists. -/

/-- Go on with what was answered, if nothing stopped. -/
def andThen {α β : Type} (o : Host.Outcome α Fault Refusal) (f : α → Host.Outcome β Fault Refusal) :
    Host.Outcome β Fault Refusal :=
  match o with
  | .next a => f a
  | .fault r => .fault r
  | .refused r => .refused r

/-- The host presents one command and the block takes it (R70). -/
def issue (i : Instr) (s : State) : Host.Outcome State Fault Refusal := step (presentNext s (encode i))

/-- The host issues these commands, each after the response to the one before, and keeps the responses (R70, R96). -/
def issueAll : List Instr → State → Host.Outcome (State × List Wide) Fault Refusal
  | [], s => .next (s, [])
  | i :: is, s =>
    andThen (issue i s) fun t =>
      andThen (issueAll is t) fun r => .next (r.1, t.response.getD 0 :: r.2)

/-- `VALUE` of the last of these responses (R96). -/
def lastValue (responses : List Wide) : Nat := (valueField (responses.getLastD 0)).toNat

/-- The bytes that `RDOUT`s answered (R97). -/
def answeredBytes (responses : List Wide) : List Byte := responses.map fun x => (valueField x).setWidth 8

/-- Issue the commands, take `VALUE` of the last response as the length `L`, and issue `RDOUT 0` to `RDOUT L-1`: the
bytes read go to the transport (R107, R134 (4)). -/
def readOutAfter (is : List Instr) (s : State) : Host.Outcome (State × List Byte) Fault Refusal :=
  andThen (issueAll is s) fun r =>
    andThen (issueAll (readOutCommands (lastValue r.2)) r.1) fun q => .next (q.1, answeredBytes q.2)

/-- `RDFRAME`: `RDREG 4` giving `L`; then `RDOUT 0` to `RDOUT L-1` (R107). -/
def issueRdframe (s : State) : Host.Outcome (State × List Byte) Fault Refusal := readOutAfter [.rdreg 4] s

/-- `TICK` for a rendered buffer: paint, encode, `RDFRAME` (R107, R134). -/
def issueTick (buffer : List Color) (s : State) : Host.Outcome (State × List Byte) Fault Refusal :=
  readOutAfter (paintCommands buffer ++ [.rdreg 4]) s

/-- The source's call `encode(buffer, ceilingR, ceilingG, ceilingB) -> bytes`: the three ceilings, the pixels, `ENCODE`,
and `RDOUT 0` to `RDOUT OUTLEN-1`, with the new `OUTLEN` from the response to `ENCODE` (R105, R97). -/
def issueEncodeCall (buffer : List Color) (cR cG cB : Half) (s : State) :
    Host.Outcome (State × List Byte) Fault Refusal :=
  readOutAfter (encodeCallCommands buffer cR cG cB) s

/-! ## The host's own state -/

/-- The host's own state: the configuration record (R8), the active tree and the single-slot pending replacement
(R133). -/
structure HostAgent where
  pixelCount : Half
  maxOutputIntensity : Half
  frameRate : Half
  active : Pattern
  pending : Option Pattern

/-- A producer installs a new tree in the pending slot; the active tree is untouched (R133). DESIGN CHOICE: R133 gives one
slot and says nothing of a second tree installed while one is pending; the newer tree replaces the older (log 24). -/
def installPattern (h : HostAgent) (p : Pattern) : HostAgent := { h with pending := some p }

/-- At the start of a tick, and only there, a pending tree is adopted and the old one released (R133). -/
def adoptPattern (h : HostAgent) : HostAgent :=
  match h.pending with
  | some p => { h with active := p, pending := none }
  | none => h

/-! ## What the host does: starting, a change of its configuration, a new tree, a tick -/

/-- A change of one value of the configuration record (R8). -/
inductive ConfigChange where
  | pixelCount (n : Half)
  | maxOutputIntensity (c : Half)
  | frameRate (f : Half)
  deriving DecidableEq, Repr

/-- The commands of one change: `SETN` alone for `pixelCount`, `SETMAX` alone for `maxOutputIntensity` (R134, R105);
none for `frameRate`, which the block does not hold (R105, R8). -/
def changeCommands : ConfigChange → List Instr
  | .pixelCount n => [.setn n]
  | .maxOutputIntensity c => setmaxCommands c
  | .frameRate _ => []

/-- The record after the change, whatever the block answered (R8; log 27). -/
def changeConfig (h : HostAgent) : ConfigChange → HostAgent
  | .pixelCount n => { h with pixelCount := n }
  | .maxOutputIntensity c => { h with maxOutputIntensity := c }
  | .frameRate f => { h with frameRate := f }

/-- What the host does before its first tick: `SETN pixelCount`, `SETMAX maxOutputIntensity` (R283). DESIGN CHOICE: R283
allows either order, and no `SETMAX` or three other `SETCEIL`s; these are issued always, in the order it lists (log 28). -/
def configureCommands (h : HostAgent) : List Instr :=
  changeCommands (.pixelCount h.pixelCount) ++ changeCommands (.maxOutputIntensity h.maxOutputIntensity)

/-- What something the host did leaves: the host, the block, the bytes for the transport and the description, which
only a tick gives (R134). -/
structure HostResult where
  host : HostAgent
  block : State
  frame : List Byte
  description : Option String

/-- Issue commands that give the transport nothing; the host then has the record given. -/
def issueFor (h : HostAgent) (is : List Instr) (s : State) : Host.Outcome HostResult Fault Refusal :=
  andThen (issueAll is s) fun r => .next ⟨h, r.1, [], none⟩

/-- The host starts to use the block (R283). -/
def hostStart (h : HostAgent) (s : State) : Host.Outcome HostResult Fault Refusal :=
  issueFor h (configureCommands h) s

/-- The host changes one value of its configuration, between two ticks: that value's commands and no other (R134, R287).
DESIGN CHOICE: R134 does not say what becomes of the record where `SETN` answers CAPACITY; it has the new value, and the
commands are issued also where the new value is the old one (log 27). -/
def hostChange (c : ConfigChange) (h : HostAgent) (s : State) : Host.Outcome HostResult Fault Refusal :=
  issueFor (changeConfig h c) (changeCommands c) s

/-- One tick of the host: adopt, render, `TICK` (R134). -/
def hostTick (h : HostAgent) (nowMs : BitVec 32) (s : State) :
    Except RenderRefusal (Host.Outcome HostResult Fault Refusal) :=
  let h' := adoptPattern h
  match renderTick h'.active nowMs h'.pixelCount.toNat with
  | .error e => .error e
  | .ok (buffer, d) => .ok (andThen (issueTick buffer s) fun r => .next ⟨h', r.1, r.2, some d⟩)

/-- What the host can do next. Each is done whole before the next begins, on one thread (R286): no change of the
configuration falls inside a tick (R134, R287), and a tree installed during a tick waits for the next (R133). -/
inductive HostEvent where
  | start
  | change (c : ConfigChange)
  | install (p : Pattern)
  | tick (nowMs : BitVec 32)

/-- The host does it. When each is done is the external scheduler's to choose (R5, R291). -/
def hostAct (e : HostEvent) (h : HostAgent) (s : State) :
    Except RenderRefusal (Host.Outcome HostResult Fault Refusal) :=
  match e with
  | .start => .ok (hostStart h s)
  | .change c => .ok (hostChange c h s)
  | .install p => .ok (.next ⟨installPattern h p, s, [], none⟩)
  | .tick nowMs => hostTick h nowMs s

end Sys2Proof.Machine
end

