-- ==== Sys2Proof/Safety.lean ====
section
/-! DEFINITION. What claims about the block are stated in: the state invariants (R29, R34, R224), the absence of a
refused command (R255), and running the block over a list of inputs. -/

namespace Sys2Proof.Machine

/-- The cache invariants of R34 (a) to (d), with the ramp the machine has. -/
structure CacheOk (cfg : Config) (cache : List CacheEntry) : Prop where
  /-- R34 (a) -/
  atMostSix : cache.length ≤ 6
  /-- R34 (b) -/
  distinctKeys : (cacheKeys cache).Nodup
  /-- R34 (c) -/
  keyRange : ∀ e ∈ cache, 255 ≤ e.key.toNat ∧ e.key.toNat ≤ 7905
  /-- R34 (d) -/
  tableOfKey : ∀ e ∈ cache, e.table = rampTable cfg e.key

/-- The pixel store is in canonical form and holds no byte at or beyond pixel `NPIX`; the count fits (R224, R25,
R32). -/
structure PixelsOk (s : State) : Prop where
  canonical : s.pix.wf = true
  bounded : ∀ c ∈ s.pix, c.1 < 3 * s.npix.toNat
  countFits : s.npix ≤ s.cfg.pixCap

/-- The frame store is in canonical form and holds no byte at or beyond `OUTLEN`, which is 0 or the length of a frame
for the present count (R27, R35). -/
structure FrameOk (s : State) : Prop where
  canonical : s.out.wf = true
  bounded : ∀ c ∈ s.out, c.1 < s.outlen.toNat
  length : s.outlen.toNat = 0 ∨ s.outlen.toNat = frameLen s.npix.toNat

/-- `CAUSE != 0` exactly when `STATUS.ERR = 1` (R29), and `CAUSE` is one of the codes of R251. -/
structure FaultRegsOk (s : State) : Prop where
  causeIffErr : s.cause ≠ 0 ↔ s.err = true
  knownCause : s.cause.toNat ≤ 5

/-- The invariant of the block: true after reset and kept by every step. -/
structure Inv (s : State) : Prop where
  cache : CacheOk s.cfg s.cache
  pixels : PixelsOk s
  frame : FrameOk s
  faultRegs : FaultRegsOk s

/-- No command has been refused since reset (R255). -/
def Clean (s : State) : Prop := s.err = false

/-- The parts of the tuple of R20. -/
inductive Part where
  | npix | ceilR | ceilG | ceilB | pix | cache | out | outlen | status | cause
deriving DecidableEq, Repr

/-- A part is the same in `t` as in `s`; a store is the same when every address reads as before. -/
def samePart (p : Part) (s t : State) : Prop :=
  match p with
  | .npix => t.npix = s.npix
  | .ceilR => t.ceilR = s.ceilR
  | .ceilG => t.ceilG = s.ceilG
  | .ceilB => t.ceilB = s.ceilB
  | .pix => ∀ a, memRead t.pix a = memRead s.pix a
  | .cache => t.cache = s.cache
  | .out => ∀ a, memRead t.out a = memRead s.out a
  | .outlen => t.outlen = s.outlen
  | .status => t.status = s.status
  | .cause => t.cause = s.cause

/-- The frame of a command: from `s` to `t` nothing of the tuple changes but the parts named, and neither the
parameters nor the pending inputs do. The response is the command's answer and no part of the tuple. -/
def UnchangedBut (written : List Part) (s t : State) : Prop :=
  t.cfg = s.cfg ∧ t.port = s.port ∧ ∀ p, p ∉ written → samePart p s t

/-- What a fault of this cause leaves (R254): `STATUS.ERR` 1, the first cause kept, the fault response, and nothing
else changed. -/
def FaultedWith (c : Cause) (s t : State) : Prop :=
  t.status = 1 ∧ t.cause = (if s.cause = 0 then causeCode c else s.cause) ∧ t.response = some (faultWord c) ∧
    UnchangedBut [.status, .cause] s t

/-- The register map of R24 as numbers: `CLEN` and `CKEYr` by R30. -/
def registerValue (s : State) (num : Nat) : Nat :=
  match num with
  | 0 => s.npix.toNat
  | 1 => s.ceilR.toNat
  | 2 => s.ceilG.toNat
  | 3 => s.ceilB.toNat
  | 4 => s.outlen.toNat
  | 5 => s.status.toNat
  | 6 => s.cause.toNat
  | 7 => s.cache.length
  | 14 => s.cfg.pixCap.toNat
  | n =>
    match s.cache[n - 8]? with
    | some e => 2 ^ 31 + e.key.toNat
    | none => 0

/-- A row of the opcode map: `op`, `match`, `mask` (R92, R93). -/
structure CommandRow where
  op : Byte
  value : Wide
  mask : Wide
deriving DecidableEq, Repr

/-- The nine rows of R93, in the order of the table. -/
def commandRows : List CommandRow :=
  [⟨0x01, 0x0100000000000000, 0xFFFF0000FFFFFFFF⟩, ⟨0x02, 0x0200000000000000, 0xFFFC0000FFFFFFFF⟩,
   ⟨0x03, 0x0300000000000000, 0xFFFF0000FF000000⟩, ⟨0x04, 0x0400000000000000, 0xFFFFFFFFFFFFFFFF⟩,
   ⟨0x10, 0x1000000000000000, 0xFF000000FFFFFFFF⟩, ⟨0x11, 0x1100000000000000, 0xFF000000FFFFFFFF⟩,
   ⟨0x20, 0x2000000000000000, 0xFFFFFFFFFFFFFFFF⟩, ⟨0x21, 0x2100000000000000, 0xFFFFFFFF00000000⟩,
   ⟨0x30, 0x3000000000000000, 0xFF00FFFFFFFFFFFF⟩]

/-- `op` is one of the nine assigned values (R92). -/
def Assigned (x : Wide) : Prop := ∃ r ∈ commandRows, opField x = r.op

/-- A must-be-zero bit of the word is 1, or it is `SETCEIL` with channel 3 (R94 (b), (c)). -/
def Reserved (x : Wide) : Prop :=
  (∃ r ∈ commandRows, opField x = r.op ∧ x &&& r.mask ≠ r.value) ∨
    (opField x = 0x02 ∧ (aField x).extractLsb' 0 2 = 3)

/-- The laws (a) to (h) of R156 for a ramp function, as the named properties R161 asks for: a proof that rests on them
alone survives another reading of the source's `round`. -/
structure RampLaws (f : Byte → Half → Half) : Prop where
  /-- R156 (a), and R151 -/
  black : ∀ c, f 0 c = 0
  /-- R156 (b) -/
  monotone : ∀ c l l', l ≤ l' → f l c ≤ f l' c
  /-- R156 (c) -/
  bounded : ∀ l c, f l c ≤ normalizeCeil c
  /-- R156 (d) -/
  zeroCeiling : ∀ l, f l 0 = f l 0x1EE1
  /-- R156 (d), in general -/
  normalized : ∀ l c, f l c = f l (normalizeCeil c)
  /-- R156 (e) -/
  top : ∀ c, f 255 c = normalizeCeil c
  /-- R156 (f) -/
  linear : ∀ (l : Byte) c, 1 ≤ l.toNat → l.toNat ≤ linearCut (normalizeCeil c).toNat → (f l c).toNat = l.toNat
  /-- R156 (g) -/
  onlyZeroBlack : ∀ (l : Byte) c, 1 ≤ l.toNat → 1 ≤ (f l c).toNat
  /-- R156 (h) -/
  hardwareMax : ∀ l c, f l c ≤ 0x1EE1

/-- An LED record of one of the four formats (R100). -/
def IsLedRecord (i : Instr) : Prop :=
  ∃ b g r : Byte, i = .wireLedB1 b g r ∨ i = .wireLedB2 b g r ∨ i = .wireLedB4 b g r ∨ i = .wireLedB31 b g r

/-- The cubic region in 32-bit unsigned arithmetic, every operation wrapping at 2^32 (R154, R159). -/
def cubicRamp32 (m : RampRounding) (level k : BitVec 32) : BitVec 32 :=
  let cut := (k + 50) / 100
  let x := level - cut
  let inR := 255 - cut
  let outR := k - cut
  let off := inR / 2
  let y := (x * x * x + off) / inR
  let bias := match m with
    | .offSquared => off * off
    | .truncate => 0
    | .halfUp => inR * inR / 2
  cut + (y * outR + bias) / inR / inR

/-- The tables `ENCODE` uses, as R205 gives them: those of the normalized ceilings, whatever the cache holds. -/
def frameOf (s : State) : List Byte :=
  encodeFrame s.pixels (rampTable s.cfg (normalizeCeil s.ceilR)) (rampTable s.cfg (normalizeCeil s.ceilG))
    (rampTable s.cfg (normalizeCeil s.ceilB))

/-- The next input is not the reset input. -/
def NoReset (s : State) : Prop := ∀ rest, s.port ≠ .reset :: rest

/-- `k` steps of the block (the machine's own `step`, as `Host.Core.run` composes it). -/
def runSteps : Nat → State → Host.Outcome State Fault Refusal
  | 0, s => .next s
  | k + 1, s =>
    match step s with
    | .next t => runSteps k t
    | .fault r => .fault r
    | .refused r => .refused r

/-- The cache after the accesses with these raw ceilings, first to last (R178). -/
def accessAll (cfg : Config) (cache : List CacheEntry) : List Half → List CacheEntry
  | [] => cache
  | c :: cs => accessAll cfg (cacheAccess cfg cache c).cache cs

/-- The distinct members of a list, each at its first place. -/
def firstPlaces : List Half → List Half
  | [] => []
  | k :: ks => k :: (firstPlaces ks).filter (fun x => x ≠ k)

/-- The up to six distinct keys most recently accessed, most recent first (R178). -/
def recentKeys (accesses : List Half) : List Half := (firstPlaces (accesses.reverse.map normalizeCeil)).take 6

end Sys2Proof.Machine
end

