-- ==== Sys2Proof/Certificates/Slice0/Obligations.lean ====
section
/-! DEFINITION. The statements for the provers. Each docstring names the rules of spec/ it formalises. -/

open Sys2Proof Sys2Proof.Machine

/-! ## Encodings -/

/-- R91, R92, R99 to R101: decoding the encoding of a well-formed instruction gives it back, with every operand at
every value, for all nine commands and all six wire formats. -/
def Obligations.DecodeOfEncodeIsTheInstruction : Prop :=
  ∀ i : Instr, i.wf = true →
    decodeTableWord i.nbits (encode i).toNat = some i ∧ (i.isCommand = true → decode (encode i) = .ok i)

/-- R93, R95: a word that decodes is the encoding of the command it decodes to, so every must-be-zero bit of it is
zero and no bit of it is dropped. -/
def Obligations.DecodedWordIsTheEncodingOfItsCommand : Prop :=
  ∀ (x : Wide) (i : Instr), decode x = .ok i → i.isCommand = true ∧ i.wf = true ∧ encode i = x

/-- R94: every word is exactly one of illegal (`op` unassigned), reserved (a must-be-zero bit is 1, or channel 3), or
a legal command. -/
def Obligations.EveryWordIsIllegalReservedOrLegal : Prop :=
  ∀ x : Wide,
    (decode x = .error .illegalOpcode ↔ ¬ Assigned x) ∧
    (decode x = .error .reservedField ↔ Assigned x ∧ Reserved x) ∧
    ((∃ i, decode x = .ok i) ↔ Assigned x ∧ ¬ Reserved x)

/-- V12, R104: words written out in the spec decode to the commands they are written beside, and wire records to
their formats. -/
def Obligations.SpecWordsDecodeAsWritten : Prop :=
  decode 0x0100009000000000#64 = .ok (.setn 144) ∧
  decode 0x020103E800000000#64 = .ok (.setceil 1 1000) ∧
  decode 0x0300000300FF8000#64 = .ok (.wpix 3 255 0x80 0) ∧
  decode 0x0400000000000000#64 = .ok .clrpix ∧
  decode 0x1080000000000000#64 = .ok (.ramp 128 0) ∧
  decode 0x11FF03E800000000#64 = .ok (.lookup 255 1000) ∧
  decode 0x2000000000000000#64 = .ok .encode ∧
  decode 0x2100000000000004#64 = .ok (.rdout 4) ∧
  decode 0x300E000000000000#64 = .ok (.rdreg 14) ∧
  decode 0x0203006400000000#64 = .error .reservedField ∧
  decode 0x0380FFFF00000000#64 = .error .reservedField ∧
  decode 0x0500FFFF00000000#64 = .error .illegalOpcode ∧
  decodeTableWord 32 0xE2969696 = some (.wireLedB2 0x96 0x96 0x96)

/-! ## One step -/

/-- R95, R70, R280: a step takes the oldest input. A word that decodes to `i` is exactly `exec i` on the state
without that input; a word that does not decode is refused with its cause; reset resets; with no input the block
waits (the last clause is the model's choice, log 4). -/
def Obligations.StepRunsTheDecodedInstruction : Prop :=
  ∀ s : State,
    (∀ w rest i, s.port = .command w :: rest → decode w = .ok i → step s = exec i { s with port := rest }) ∧
    (∀ w rest c, s.port = .command w :: rest → decode w = .error c →
      step s = .next (raiseFault { s with port := rest } c)) ∧
    (∀ rest, s.port = .reset :: rest → step s = .next (resetInput { s with port := rest })) ∧
    (s.port = [] → step s = .next s)

/-- R95, the decoding procedure in order: unassigned `op` raises ILLEGAL_OPCODE, a reserved word RESERVED_FIELD, and
any other word is performed as the one command it encodes. -/
def Obligations.WordIsDecodedInOrder : Prop :=
  ∀ (s : State) (w : Wide) (rest : List PortEvent), s.port = .command w :: rest →
    (¬ Assigned w → ∃ t, step s = .next t ∧ FaultedWith .illegalOpcode { s with port := rest } t) ∧
    (Assigned w → Reserved w → ∃ t, step s = .next t ∧ FaultedWith .reservedField { s with port := rest } t) ∧
    (Assigned w → ¬ Reserved w → ∃ i, i.wf = true ∧ encode i = w ∧ step s = exec i { s with port := rest })

/-- R294, R70: in every state a step answers a next state and takes one input, the oldest, off the port. -/
def Obligations.EveryStepAnswersANextState : Prop :=
  ∀ s : State, ∃ t, step s = .next t ∧ t.port = s.port.tail ∧ t.cfg = s.cfg

/-- R96: every command produces exactly one response word, normal or fault, and the fields of both formats. -/
def Obligations.EveryCommandIsAnsweredInTheResponseFormat : Prop :=
  (∀ (s : State) (w : Wide) (rest : List PortEvent), s.port = .command w :: rest →
    ∃ t x, step s = .next t ∧ t.response = some x ∧ ((∃ v f, x = okWord v f) ∨ ∃ c, x = faultWord c)) ∧
  (∀ v f, errBit (okWord v f) = false ∧ (okWord v f).extractLsb' 43 20 = 0 ∧ causeField (okWord v f) = 0 ∧
    valueField (okWord v f) = v ∧ hitRBit (okWord v f) = f.hitR ∧ hitGBit (okWord v f) = f.hitG ∧
    hitBBit (okWord v f) = f.hitB) ∧
  (∀ c, errBit (faultWord c) = true ∧ (faultWord c).extractLsb' 43 20 = 0 ∧ causeField (faultWord c) = causeCode c ∧
    causeCode c ≠ 0 ∧ valueField (faultWord c) = 0 ∧ hitRBit (faultWord c) = false ∧ hitGBit (faultWord c) = false ∧
    hitBBit (faultWord c) = false)

/-! ## Faults -/

/-- R254: a command whose response has `ERR` = 1 leaves `STATUS.ERR` = 1, keeps the first cause, answers with its own
cause, and changes nothing else; the causes are those of R251. -/
def Obligations.RefusedCommandChangesOnlyStatusAndCause : Prop :=
  ∀ (s t : State) (w x : Wide) (rest : List PortEvent), s.port = .command w :: rest → step s = .next t →
    t.response = some x → errBit x = true →
    ∃ c, x = faultWord c ∧ FaultedWith c { s with port := rest } t

/-- R28, R29, R255: no step but a reset clears `STATUS.ERR`, and none changes a `CAUSE` that is set. -/
def Obligations.StatusAndCauseStayUntilReset : Prop :=
  ∀ s t : State, NoReset s → step s = .next t →
    (s.err = true → t.err = true) ∧ (s.cause ≠ 0 → t.cause = s.cause) ∧
    (s.err = false → t.err = true → ∃ x, t.response = some x ∧ errBit x = true)

/-! ## The commands -/

/-- R220: `n` is the field `h`, and a word with `op` 0x01 whose `a` or `w` is not zero is reserved. `SETN n` with `n <= PIX_CAP` sets the count, makes every pixel black, drops the frame, so that every `RDOUT`
then faults, and leaves ceilings and cache; with `n > PIX_CAP` it faults CAPACITY and changes nothing else. -/
def Obligations.SetnMakesABlackStoreOrFaults : Prop :=
  ∀ (n : Half) (s : State),
    (∀ a w, decode (pack 0x01 a n w) = if a = 0 ∧ w = 0 then .ok (.setn n) else .error .reservedField) ∧
    (n ≤ s.cfg.pixCap → ∃ t, exec (.setn n) s = .next t ∧ t.response = some (okWord 0 noHits) ∧ t.npix = n ∧
      t.pixels = List.replicate n.toNat Color.black ∧ t.outlen = 0 ∧
      (∀ j, ∃ u, exec (.rdout j) t = .next u ∧ FaultedWith .indexRange t u) ∧
      UnchangedBut [.npix, .pix, .out, .outlen] s t) ∧
    (s.cfg.pixCap < n → ∃ t, exec (.setn n) s = .next t ∧ FaultedWith .capacity s t)

/-- R221: the channel is `a[1:0]`, the ceiling `h`; a word with `op` 0x02 whose `a[7:2]` or `w` is not zero, or with
channel 3, is reserved. `SETCEIL` stores the raw value in the register of its channel, 0 R, 1 G, 2 B, and writes nothing else;
channel 3 faults RESERVED_FIELD. -/
def Obligations.SetceilWritesOneRawCeiling : Prop :=
  ∀ (c : Half) (s : State),
    (∀ a w, decode (pack 0x02 a c w) =
      if a.toNat ≤ 2 ∧ w = 0 then .ok (.setceil (a.extractLsb' 0 2) c) else .error .reservedField) ∧
    (∃ t, exec (.setceil 0 c) s = .next t ∧ t.response = some (okWord 0 noHits) ∧ t.ceilR = c ∧
      UnchangedBut [.ceilR] s t) ∧
    (∃ t, exec (.setceil 1 c) s = .next t ∧ t.response = some (okWord 0 noHits) ∧ t.ceilG = c ∧
      UnchangedBut [.ceilG] s t) ∧
    (∃ t, exec (.setceil 2 c) s = .next t ∧ t.response = some (okWord 0 noHits) ∧ t.ceilB = c ∧
      UnchangedBut [.ceilB] s t) ∧
    (∃ t, exec (.setceil 3 c) s = .next t ∧ FaultedWith .reservedField s t)

/-- R222: `i` is `h`, `r`, `g`, `b` are the bytes 23:16, 15:8, 7:0 of `w`; a word with `op` 0x03 whose `a` or `w[31:24]`
is not zero is reserved. `WPIX i, r, g, b` with `i < NPIX` writes `PIX[i]`, and no byte of the store outside its three; with
`i >= NPIX` it faults INDEX_RANGE. The store is canonical, which every reachable one is (`InvariantHoldsAtReset`,
`StepKeepsTheInvariant`). -/
def Obligations.WpixWritesOnePixelOrFaults : Prop :=
  ∀ (i : Half) (r g b : Byte) (s : State),
    (∀ a z : Byte, decode (pack 0x03 a i (z ++ r ++ g ++ b)) =
      if a = 0 ∧ z = 0 then .ok (.wpix i r g b) else .error .reservedField) ∧
    (i < s.npix → s.pix.wf = true → ∃ t, exec (.wpix i r g b) s = .next t ∧ t.response = some (okWord 0 noHits) ∧
      pixelAt t.pix i.toNat = ⟨r, g, b⟩ ∧
      (∀ a, a < 3 * i.toNat ∨ 3 * i.toNat + 2 < a → memRead t.pix a = memRead s.pix a) ∧
      t.pixels = s.pixels.set i.toNat ⟨r, g, b⟩ ∧ UnchangedBut [.pix] s t) ∧
    (s.npix ≤ i → ∃ t, exec (.wpix i r g b) s = .next t ∧ FaultedWith .indexRange s t)

/-- R223: a word with `op` 0x04 and any other bit 1 is reserved. `CLRPIX` makes every pixel black and writes nothing else, also when there is none. -/
def Obligations.ClrpixMakesEveryPixelBlack : Prop :=
  (∀ a h w, decode (pack 0x04 a h w) = if a = 0 ∧ h = 0 ∧ w = 0 then .ok .clrpix else .error .reservedField) ∧
  ∀ s : State, ∃ t, exec .clrpix s = .next t ∧ t.response = some (okWord 0 noHits) ∧
    t.pixels = List.replicate s.npix.toNat Color.black ∧ UnchangedBut [.pix] s t

/-- R160: `l` is `a`, `c` is `h`; a word with `op` 0x10 whose `w` is not zero is reserved. `RAMP l, c` answers `Ramp(l, c)` and writes nothing, the cache included; 0 and values above 0x1EE1 act as
0x1EE1, 1 to 254 as 255. -/
def Obligations.RampAnswersTheCurveAndWritesNothing : Prop :=
  ∀ (l : Byte) (c : Half) (s : State),
    (∀ w, decode (pack 0x10 l c w) = if w = 0 then .ok (.ramp l c) else .error .reservedField) ∧
    ∃ t v, exec (.ramp l c) s = .next t ∧ t.response = some (okWord v noHits) ∧
      v.toNat = (ramp s.cfg l c).toNat ∧ UnchangedBut [] s t ∧
      (l = 0 → v = 0) ∧
      (c = 0 ∨ 0x1EE1 < c → exec (.ramp l c) s = exec (.ramp l 0x1EE1) s) ∧
      (c ≠ 0 → c < 255 → exec (.ramp l c) s = exec (.ramp l 255) s)

/-- R176: `l` is `a`, `c` is `h`; a word with `op` 0x11 whose `w` is not zero is reserved. `LOOKUP l, c` makes one access, answers entry `l` of the table, which is `Ramp(l, c)` hit or miss,
with `HITR` = 1 exactly when the key was cached, and leaves the accessed key at rank 0, the other five most recent
after it. The cache invariants of R34 are assumed, which every reachable state has. -/
def Obligations.LookupAnswersTheRampHitOrMiss : Prop :=
  ∀ (l : Byte) (c : Half) (s : State), CacheOk s.cfg s.cache →
    (∀ w, decode (pack 0x11 l c w) = if w = 0 then .ok (.lookup l c) else .error .reservedField) ∧
    ∃ t v h, exec (.lookup l c) s = .next t ∧ t.response = some (okWord v ⟨h, false, false⟩) ∧
      v.toNat = (ramp s.cfg l c).toNat ∧
      (h = true ↔ normalizeCeil c ∈ cacheKeys s.cache) ∧
      cacheKeys t.cache = normalizeCeil c :: ((cacheKeys s.cache).filter (fun k => k ≠ normalizeCeil c)).take 5 ∧
      CacheOk t.cfg t.cache ∧ UnchangedBut [.cache] s t

/-- R202, R204: a word with `op` 0x20 and any other bit 1 is reserved. `ENCODE` makes the accesses red, green, blue in that order, writes the frame of the current
pixels and ceilings whole into `OUT`, sets `OUTLEN` to its length and answers it with the three hits. -/
def Obligations.EncodeWritesTheFrame : Prop :=
  (∀ a h w, decode (pack 0x20 a h w) = if a = 0 ∧ h = 0 ∧ w = 0 then .ok .encode else .error .reservedField) ∧
  ∀ s : State, CacheOk s.cfg s.cache →
    ∃ t v hR hG hB, exec .encode s = .next t ∧ t.response = some (okWord v ⟨hR, hG, hB⟩) ∧
      v.toNat = frameLen s.npix.toNat ∧ t.outlen.toNat = frameLen s.npix.toNat ∧
      (∀ j, j < frameLen s.npix.toNat → (frameOf s)[j]? = some (memRead t.out j)) ∧
      t.cache = accessAll s.cfg s.cache [s.ceilR, s.ceilG, s.ceilB] ∧
      (hR = true ↔ normalizeCeil s.ceilR ∈ cacheKeys s.cache) ∧
      (hG = true ↔ normalizeCeil s.ceilG ∈ cacheKeys (accessAll s.cfg s.cache [s.ceilR])) ∧
      (hB = true ↔ normalizeCeil s.ceilB ∈ cacheKeys (accessAll s.cfg s.cache [s.ceilR, s.ceilG])) ∧
      UnchangedBut [.cache, .out, .outlen] s t

/-- R206: `j` is `w`; a word with `op` 0x21 whose `a` or `h` is not zero is reserved. `RDOUT j` with `j < OUTLEN` answers `OUT[j]` and writes nothing; with `j >= OUTLEN` it faults
INDEX_RANGE. -/
def Obligations.RdoutAnswersOneByteOrFaults : Prop :=
  ∀ (j : Word) (s : State),
    (∀ a h, decode (pack 0x21 a h j) = if a = 0 ∧ h = 0 then .ok (.rdout j) else .error .reservedField) ∧
    (j.toNat < s.outlen.toNat → ∃ t v, exec (.rdout j) s = .next t ∧ t.response = some (okWord v noHits) ∧
      v.toNat = (memRead s.out j.toNat).toNat ∧ UnchangedBut [] s t) ∧
    (s.outlen.toNat ≤ j.toNat → ∃ t, exec (.rdout j) s = .next t ∧ FaultedWith .indexRange s t)

/-- R226, with the map of R24 and R30: `num` is `a`; a word with `op` 0x30 whose `h` or `w` is not zero is reserved.
`RDREG num` with `num <= 14` answers the register of the map and writes nothing; 15 to 255 fault
BAD_REGISTER. At most six entries are cached, as in every reachable state. -/
def Obligations.RdregAnswersTheRegisterOrFaults : Prop :=
  ∀ (num : Byte) (s : State), s.cache.length ≤ 6 →
    (∀ h w, decode (pack 0x30 num h w) = if h = 0 ∧ w = 0 then .ok (.rdreg num) else .error .reservedField) ∧
    (num.toNat ≤ 14 → ∃ t v, exec (.rdreg num) s = .next t ∧ t.response = some (okWord v noHits) ∧
      v.toNat = registerValue s num.toNat ∧ UnchangedBut [] s t) ∧
    (14 < num.toNat → ∃ t, exec (.rdreg num) s = .next t ∧ FaultedWith .badRegister s t)

/-- R108, R94(a): a wire format is no command the block accepts: presented at the port it is refused with
ILLEGAL_OPCODE, and so is its bare word (the model's reading, log 7). -/
def Obligations.WireFormatsAreRefusedAsCommands : Prop :=
  ∀ (i : Instr) (s : State), i.isCommand = false →
    (∃ t, exec i s = .next t ∧ FaultedWith .illegalOpcode s t) ∧
    step (s.withFetchWord i.nbits (encode i).toNat) = exec i s

/-- R227: what a command leaves unchanged, for every command and every state in which it is not refused; of the pixel
store `WPIX` leaves every byte outside the three of pixel `i`. -/
def Obligations.CommandsWriteOnlyTheirColumn : Prop :=
  ∀ (i : Instr) (s t : State) (x : Wide), exec i s = .next t → t.response = some x → errBit x = false →
    match i with
    | .setn _ => UnchangedBut [.npix, .pix, .out, .outlen] s t
    | .setceil ch _ =>
      UnchangedBut (if ch = 0 then [.ceilR] else if ch = 1 then [.ceilG] else [.ceilB]) s t
    | .wpix p _ _ _ => UnchangedBut [.pix] s t ∧
      ∀ a, a < 3 * p.toNat ∨ 3 * p.toNat + 2 < a → memRead t.pix a = memRead s.pix a
    | .clrpix => UnchangedBut [.pix] s t
    | .lookup _ _ => UnchangedBut [.cache] s t
    | .encode => UnchangedBut [.cache, .out, .outlen] s t
    | .ramp _ _ | .rdout _ | .rdreg _ => UnchangedBut [] s t
    | .wireStart | .wireLedB1 _ _ _ | .wireLedB2 _ _ _ | .wireLedB4 _ _ _ | .wireLedB31 _ _ _ | .wireEnd => False

/-- R175: only `LOOKUP` and `ENCODE` use the cache; every other command, and every refused one, leaves it exactly as it
was. -/
def Obligations.OnlyLookupAndEncodeUseTheCache : Prop :=
  ∀ (s t : State) (w : Wide) (rest : List PortEvent), s.port = .command w :: rest → step s = .next t →
    (∀ l c, decode w ≠ .ok (.lookup l c)) → decode w ≠ .ok .encode → t.cache = s.cache

/-! ## The ramp function -/

/-- R150: the four cases of `Normalize`, in their order, and that it is idempotent. -/
def Obligations.NormalizeClampsTheCeiling : Prop :=
  (∀ c : Half, c = 0 → normalizeCeil c = 0x1EE1) ∧
  (∀ c : Half, 0x1EE1 < c → normalizeCeil c = 0x1EE1) ∧
  (∀ c : Half, c ≠ 0 → c < 255 → normalizeCeil c = 255) ∧
  (∀ c : Half, 255 ≤ c → c ≤ 0x1EE1 → normalizeCeil c = c) ∧
  (∀ c : Half, normalizeCeil (normalizeCeil c) = normalizeCeil c)

/-- R152, R153, R151: level 0 is black under every ceiling, and below the cutoff `(k + 50) / 100`, which lies in
3..79, a level maps to itself. -/
def Obligations.RampIsBlackThenLinear : Prop :=
  ∀ (cfg : Config) (l : Byte) (c : Half),
    3 ≤ ((normalizeCeil c).toNat + 50) / 100 ∧ ((normalizeCeil c).toNat + 50) / 100 ≤ 79 ∧
    (l = 0 → ramp cfg l c = 0) ∧
    (1 ≤ l.toNat → l.toNat < ((normalizeCeil c).toNat + 50) / 100 → (ramp cfg l c).toNat = l.toNat)

/-- R154, R155 with the default reading of the source's `round` (log 2): the cubic region as the rule writes it, with
exact integers; nothing is lost when the value becomes a u16. -/
def Obligations.RampFollowsTheCubicFormula : Prop :=
  ∀ (cfg : Config) (l : Byte) (c : Half), cfg.rampBody = .formula .offSquared →
    ((normalizeCeil c).toNat + 50) / 100 ≤ l.toNat →
    let k := (normalizeCeil c).toNat
    let cut := (k + 50) / 100
    let x := l.toNat - cut
    let inR := 255 - cut
    let outR := k - cut
    let off := inR / 2
    let y := (x * x * x + off) / inR
    (ramp cfg l c).toNat = cut + (y * outR + off * off) / inR / inR

/-- R156: the laws (a) to (h) of the ramp (`RampLaws`) for the function of R155, under every reading of the source's
`round` that D10 names. -/
def Obligations.RampSatisfiesItsLaws : Prop :=
  ∀ (cfg : Config) (m : RampRounding), cfg.rampBody = .formula m → RampLaws (ramp cfg)

/-- R159, R265: the cubic region computed in 32-bit unsigned arithmetic, wrapping at 2^32, is the exact one, for every
key and every level of the region: no intermediate overflows. -/
def Obligations.ThirtyTwoBitsSufficeForTheRamp : Prop :=
  ∀ (m : RampRounding) (l k : BitVec 32), 255 ≤ k.toNat → k.toNat ≤ 7905 → (k.toNat + 50) / 100 ≤ l.toNat →
    l.toNat ≤ 255 → (cubicRamp32 m l k).toNat = cubicRamp m l.toNat k.toNat

/-! ## The ramp cache -/

/-- R178: after any sequence of accesses from the empty cache, the keys in rank order are the up to six distinct keys
most recently accessed, and the next access hits exactly when its key is among them. -/
def Obligations.CacheHoldsTheSixMostRecentKeys : Prop :=
  ∀ (cfg : Config) (cs : List Half),
    cacheKeys (accessAll cfg [] cs) = recentKeys cs ∧
    ∀ c, (cacheAccess cfg (accessAll cfg [] cs) c).hit = true ↔ normalizeCeil c ∈ recentKeys cs

/-- R177, the source's cache property: seven accesses to distinct keys are seven misses and leave the last six, most
recent first; each of those six is then a hit, and the first key is a miss that evicts the key at rank 5 and returns
a fresh table. -/
def Obligations.SeventhKeyEvictsTheFirst : Prop :=
  ∀ (cfg : Config) (c1 c2 c3 c4 c5 c6 c7 : Half),
    ([c1, c2, c3, c4, c5, c6, c7].map normalizeCeil).Nodup →
    (∀ n, n < 7 → (cacheAccess cfg (accessAll cfg [] ([c1, c2, c3, c4, c5, c6, c7].take n))
      ([c1, c2, c3, c4, c5, c6, c7].getD n 0)).hit = false) ∧
    cacheKeys (accessAll cfg [] [c1, c2, c3, c4, c5, c6, c7]) = [c7, c6, c5, c4, c3, c2].map normalizeCeil ∧
    (∀ c ∈ [c2, c3, c4, c5, c6, c7], (cacheAccess cfg (accessAll cfg [] [c1, c2, c3, c4, c5, c6, c7]) c).hit = true) ∧
    (cacheAccess cfg (accessAll cfg [] [c1, c2, c3, c4, c5, c6, c7]) c1).hit = false ∧
    (cacheAccess cfg (accessAll cfg [] [c1, c2, c3, c4, c5, c6, c7]) c1).table = rampTable cfg (normalizeCeil c1) ∧
    cacheKeys (accessAll cfg [] [c1, c2, c3, c4, c5, c6, c7, c1]) = [c1, c7, c6, c5, c4, c3].map normalizeCeil

/-- R180: after the three accesses of one `ENCODE` the three keys hold the first ranks, blue at rank 0, so none evicted
another, from any cache of at most six entries. -/
def Obligations.ThreeTablesCoexist : Prop :=
  ∀ (cfg : Config) (cache : List CacheEntry) (cR cG cB : Half), cache.length ≤ 6 →
    ∃ rest, cacheKeys (accessAll cfg cache [cR, cG, cB]) =
      firstPlaces [normalizeCeil cB, normalizeCeil cG, normalizeCeil cR] ++ rest ∧
      (accessAll cfg cache [cR, cG, cB]).length ≤ 6

/-- R34(e): the number of cached entries never decreases except by reset. -/
def Obligations.CacheShrinksOnlyByReset : Prop :=
  ∀ s t : State, NoReset s → step s = .next t → s.cache.length ≤ t.cache.length

/-! ## The wire encoder -/

/-- R190, R201: the frame has exactly `4*(n + 1) + n/2/8 + 1` bytes, for any pixels and any tables. -/
def Obligations.FrameHasTheFormulaLength : Prop :=
  ∀ (pix : List Color) (tR tG tB : RampTable),
    (encodeFrame pix tR tG tB).length = 4 * (pix.length + 1) + pix.length / 2 / 8 + 1

/-- R192, R193, R200: bytes 0 to 3 are 00, bytes 4 + 4i .. 7 + 4i are the record of pixel `i`, every byte from 4 + 4n
to the end is FF. -/
def Obligations.FramePlacesItsParts : Prop :=
  ∀ (pix : List Color) (tR tG tB : RampTable),
    (encodeFrame pix tR tG tB).take 4 = [0x00, 0x00, 0x00, 0x00] ∧
    (∀ (i : Nat) (p : Color), pix[i]? = some p →
      ((encodeFrame pix tR tG tB).drop (4 + 4 * i)).take 4 = wireBytes (pixelRecord tR tG tB p)) ∧
    (∀ j, 4 + 4 * pix.length ≤ j → j < frameLen pix.length → (encodeFrame pix tR tG tB)[j]? = some 0xFF)

/-- R195, R196: the first byte of a record is `0xE0 | br` with `br` chosen by the largest of the three ramped values:
1 up to 255, 2 up to 511, 4 up to 1023, else 31. -/
def Obligations.BrightnessIsChosenByTheLargestValue : Prop :=
  ∀ r g b : Half,
    let m := max r.toNat (max g.toNat b.toNat)
    let br : Byte := if m ≤ 255 then 1 else if m ≤ 511 then 2 else if m ≤ 1023 then 4 else 31
    (wireBytes (record r g b)).head? = some (0xE0 ||| br)

/-- R199: the four bytes of `Record(r, g, b)` as the rule writes them, in 32-bit arithmetic, for all u16 inputs; divisor
2 truncates (log 3). -/
def Obligations.RecordBytesFollowTheRule : Prop :=
  ∀ r g b : Half,
    let wide (v : Half) : Word := v.setWidth 32
    let low (q : Word) : Byte := q.setWidth 8
    let clip (q : Word) : Byte := if 255 < q then 255 else q.setWidth 8
    wireBytes (record r g b) =
      if r ≤ 255 ∧ g ≤ 255 ∧ b ≤ 255 then [0xE1, low (wide b), low (wide g), low (wide r)]
      else if r ≤ 511 ∧ g ≤ 511 ∧ b ≤ 511 then
        [0xE2, low (wide b >>> 1), low (wide g >>> 1), low (wide r >>> 1)]
      else if r ≤ 1023 ∧ g ≤ 1023 ∧ b ≤ 1023 then
        [0xE4, clip ((wide b + 2) >>> 2), clip ((wide g + 2) >>> 2), clip ((wide r + 2) >>> 2)]
      else [0xFF, clip ((wide b + 15) / 31), clip ((wide g + 15) / 31), clip ((wide r + 15) / 31)]

/-- R207(e): for a fixed brightness the colour byte never falls as the ramped value rises, over the values that
brightness is chosen for (with divisor 31, over every value). -/
def Obligations.ColourByteIsMonotone : Prop :=
  ∀ (br : Brightness) (v v' : Half), v ≤ v' →
    (br = .br1 → v' ≤ 255) → (br = .br2 → v' ≤ 511) → colourByte br v ≤ colourByte br v'

/-- S10, R151: a black pixel encodes to `E1 00 00 00` under any three ceilings. -/
def Obligations.BlackPixelEncodesToBrightnessOne : Prop :=
  ∀ (cfg : Config) (cR cG cB : Half),
    wireBytes (pixelRecord (rampTable cfg (normalizeCeil cR)) (rampTable cfg (normalizeCeil cG))
      (rampTable cfg (normalizeCeil cB)) Color.black) = [0xE1, 0x00, 0x00, 0x00]

/-- R102, R108: a reader that knows `NPIX` cuts the stream back into the very wire formats the encoder emitted. -/
def Obligations.FrameReadsBackAsEmitted : Prop :=
  ∀ (pix : List Color) (tR tG tB : RampTable),
    readFrame pix.length (encodeFrame pix tR tG tB) = .ok (frameItems pix tR tG tB)

/-- R102, R103: the reader accepts only whole frames: what it accepts has the formula's length and is the bytes of the
formats it reads, which are the start frame, then one LED record per pixel, then the end-frame bytes. -/
def Obligations.ReaderAcceptsOnlyFrames : Prop :=
  ∀ (n : Nat) (bs : List Byte) (is : List Instr), readFrame n bs = .ok is →
    is.flatMap wireBytes = bs ∧ bs.length = frameLen n ∧
    ∃ recs, is = .wireStart :: recs ++ List.replicate (n / 2 / 8 + 1) .wireEnd ∧ recs.length = n ∧
      ∀ i ∈ recs, IsLedRecord i

/-- R205: the bytes `ENCODE` writes are a function of the count, the pixels and the three normalized ceilings: two
states that agree on those, however their caches, earlier frames, statuses and raw ceilings differ, get the same
`OUT` and `OUTLEN`. -/
def Obligations.FrameDependsOnPixelsAndCeilingsOnly : Prop :=
  ∀ s s' t t' : State, CacheOk s.cfg s.cache → CacheOk s'.cfg s'.cache → s'.cfg.rampBody = s.cfg.rampBody →
    s'.npix = s.npix → (∀ i, i < s.npix.toNat → pixelAt s'.pix i = pixelAt s.pix i) →
    normalizeCeil s'.ceilR = normalizeCeil s.ceilR → normalizeCeil s'.ceilG = normalizeCeil s.ceilG →
    normalizeCeil s'.ceilB = normalizeCeil s.ceilB →
    exec .encode s = .next t → exec .encode s' = .next t' → t'.out = t.out ∧ t'.outlen = t.outlen

/-- R71, R202, R206: after `ENCODE` has answered, `RDOUT j` answers byte `j` of the new frame for every `j` below its
length, and faults beyond. -/
def Obligations.ReadOutAfterEncodeGivesTheFrame : Prop :=
  ∀ (s t : State) (j : Word), CacheOk s.cfg s.cache → exec .encode s = .next t →
    (∀ v, (frameOf s)[j.toNat]? = some v →
      ∃ u, exec (.rdout j) t = .next u ∧ u.response = some (okWord (v.setWidth 32) noHits)) ∧
    (frameLen s.npix.toNat ≤ j.toNat → ∃ u, exec (.rdout j) t = .next u ∧ FaultedWith .indexRange t u)

/-- R203: with no pixels `ENCODE` writes the five bytes 00 00 00 00 FF and still makes the three accesses. -/
def Obligations.ZeroPixelsGiveTheFiveByteFrame : Prop :=
  ∀ s : State, s.npix = 0 →
    ∃ t, exec .encode s = .next t ∧ t.outlen = 5 ∧
      (List.range 5).map (memRead t.out) = [0x00, 0x00, 0x00, 0x00, 0xFF] ∧
      t.cache = accessAll s.cfg s.cache [s.ceilR, s.ceilG, s.ceilB]

/-! ## Reset and invariants -/

/-- R38: a reset leaves every register and store at the value of the table, whatever the state was; the
parameters stay, and registers 0 to 13 read 0, register 14 `PIX_CAP`. -/
def Obligations.ResetLeavesTheResetState : Prop :=
  ∀ (s : State) (rest : List PortEvent), s.port = .reset :: rest →
    ∃ t, step s = .next t ∧ t.npix = 0 ∧ t.ceilR = 0 ∧ t.ceilG = 0 ∧ t.ceilB = 0 ∧ t.pixels = [] ∧ t.cache = [] ∧
      t.outlen = 0 ∧ t.status = 0 ∧ t.cause = 0 ∧ t.cfg = s.cfg ∧
      (∀ num : Byte, num.toNat ≤ 13 → readRegister t num = some 0) ∧
      readRegister t 14 = some (s.cfg.pixCap.setWidth 32)

/-- R34, R29, R27, R224: the invariant holds in the state after reset, with any parameters and any pending inputs. -/
def Obligations.InvariantHoldsAtReset : Prop :=
  Inv State.reset ∧ ∀ s : State, Inv (resetInput s)

/-- R34, R29, R27, R224: every step keeps the invariant: at most six entries with distinct keys in 255..7905, each
with exactly its own table; canonical stores within their bounds; `OUTLEN` 0 or the present frame length; the count
within capacity; `CAUSE` set exactly when `ERR` is. -/
def Obligations.StepKeepsTheInvariant : Prop :=
  ∀ s t : State, Inv s → step s = .next t → Inv t

/-! ## The host (outside the block) -/

/-- R121: rendering never changes the length of the buffer, whatever the pattern. -/
def Obligations.RenderKeepsTheLength : Prop :=
  ∀ (p : Pattern) (ms : BitVec 32) (buffer out : List Color) (d : Description),
    render p ms buffer = .ok (out, d) → out.length = buffer.length

/-- R124: Solid writes its colour to every position. -/
def Obligations.SolidFillsTheBuffer : Prop :=
  ∀ (c : Color) (ms : BitVec 32) (buffer : List Color),
    render (.solid c) ms buffer = .ok (List.replicate buffer.length c, .solid c)

/-- R125: Spectrum writes every position `i` with the colour of `380 + (401*i)/length`, which lies in [380, 781), and
that colour is black outside this range; the table inside it is open (log 13). -/
def Obligations.SpectrumColoursEveryPosition : Prop :=
  (∀ (ms : BitVec 32) (buffer : List Color),
    ∃ out, render .spectrum ms buffer = .ok (out, .spectrum) ∧ out.length = buffer.length ∧
      ∀ i, i < buffer.length → ∃ w : Half, w.toNat = 380 + (401 * i) / buffer.length ∧ 380 ≤ w.toNat ∧
        w.toNat < 781 ∧ out[i]? = some (spectrumColor w)) ∧
  (∀ w : Half, w.toNat < 380 ∨ 781 ≤ w.toNat → spectrumColor w = Color.black)

/-- R128: an empty Cycle leaves the buffer untouched; any other, with a duration that is not 0, does exactly what the
child `(elapsedMs / durationPerChild) mod N` does, description included. -/
def Obligations.CycleDelegatesToOneChild : Prop :=
  ∀ (children : PatternList) (duration : Nat) (ms : BitVec 32) (buffer : List Color),
    (childCount children = 0 → render (.cycle children duration) ms buffer = .ok (buffer, .emptyCycle)) ∧
    (childCount children ≠ 0 → duration ≠ 0 →
      ∃ p, childAt children (ms.toNat / duration % childCount children) = some p ∧
        render (.cycle children duration) ms buffer = render p ms buffer)

/-- R127: Rotate puts the child's pixel `i` at index `(i + offset) mod length`, for every `i`, with the offset of the
rule. -/
def Obligations.RotatePlacesTheChildsPixels : Prop :=
  ∀ (child : Pattern) (period : Nat) (ms : BitVec 32) (buffer scratch : List Color) (d : Description),
    render child ms (clearBuffer buffer.length) = .ok (scratch, d) →
    ∃ out, render (.rotate child period) ms buffer = .ok (out, .rotate d) ∧ out.length = buffer.length ∧
      ∀ i, i < buffer.length →
        out[(i + (if period = 0 then 0 else ms.toNat / period % buffer.length)) % buffer.length]? = scratch[i]?

/-- R126: TiledRepeat repeats its fragment along the buffer, and writes nothing when the fragment is empty. -/
def Obligations.TiledRepeatTilesTheBuffer : Prop :=
  ∀ (source buffer : List Color) (ms : BitVec 32),
    ∃ out, render (.tiledRepeat source) ms buffer = .ok (out, .tiledRepeat source) ∧ (source = [] → out = buffer) ∧
      ∀ i, i < buffer.length → source ≠ [] → out[i]? = source[i % source.length]?

/-- R107: `SETMAX c`, run through the port, sets the three ceilings to `c` and nothing else of the tuple. R134, R105: the
host's change of `maxOutputIntensity` does the same, so pixels and frame stay; its change of `pixelCount` is the one command
`SETN`; its change of `frameRate` leaves the block as it is. The record then has the new value, whatever the block answered,
which is the model's choice (log 27). -/
def Obligations.SetmaxSetsTheThreeCeilings : Prop :=
  (∀ (c : Half) (s : State) (rest : List PortEvent), s.port = commandEvents (setmaxCommands c) ++ rest →
    ∃ t, runSteps 3 s = .next t ∧ t.ceilR = c ∧ t.ceilG = c ∧ t.ceilB = c ∧
      UnchangedBut [.ceilR, .ceilG, .ceilB] { s with port := rest } t) ∧
  (∀ (c : Half) (h : HostAgent) (s : State), ∃ t,
    hostChange (.maxOutputIntensity c) h s = .next ⟨{ h with maxOutputIntensity := c }, t, [], none⟩ ∧
      t.ceilR = c ∧ t.ceilG = c ∧ t.ceilB = c ∧ UnchangedBut [.ceilR, .ceilG, .ceilB] s t) ∧
  (∀ (n : Half) (h : HostAgent) (s : State), ∃ t,
    hostChange (.pixelCount n) h s = .next ⟨{ h with pixelCount := n }, t, [], none⟩ ∧ exec (.setn n) s = .next t) ∧
  ∀ (f : Half) (h : HostAgent) (s : State),
    hostChange (.frameRate f) h s = .next ⟨{ h with frameRate := f }, s, [], none⟩

/-- R134, R285: one tick up to `ENCODE`: the host clears, writes every pixel of the rendered buffer that is not black
(black positions are skipped, the model's choice among what R134 permits, log 15; ascending order, the
model's choice, log 26) and encodes; the frame then held is the encoding of that buffer under the current ceilings, and every
command of the tick was answered with `ERR` = 0. -/
def Obligations.TickEncodesTheRenderedBuffer : Prop :=
  ∀ (s : State) (buffer : List Color) (rest : List PortEvent),
    Inv s → s.npix.toNat = buffer.length → s.port = commandEvents (paintCommands buffer) ++ rest →
    ∃ t, runSteps (paintCommands buffer).length s = .next t ∧ t.port = rest ∧ t.pixels = buffer ∧
      t.status = s.status ∧ t.outlen.toNat = frameLen buffer.length ∧
      (∀ k, k < (paintCommands buffer).length → ∃ u x, runSteps (k + 1) s = .next u ∧ u.response = some x ∧
        errBit x = false) ∧
      ∀ j, j < frameLen buffer.length →
        (encodeFrame buffer (rampTable s.cfg (normalizeCeil s.ceilR)) (rampTable s.cfg (normalizeCeil s.ceilG))
          (rampTable s.cfg (normalizeCeil s.ceilB)))[j]? = some (memRead t.out j)

/-! ## The open parts: the ramp as a field of the configuration, descriptions, the pattern slot -/

/-- R161: every ramp function that satisfies the laws of R156 is the ramp of some configuration. -/
def Obligations.EveryLawfulRampIsExpressible : Prop :=
  ∀ (f : Byte → Half → Half) (cap : Half), RampLaws f → ∀ l c, ramp ⟨cap, tabulate f⟩ l c = f l c

/-- R207(d), from the laws of R156 alone (R161), whatever the ramp's body: if the three keys are 255 every record has
brightness 1 and its colour bytes are the three ramped values. -/
def Obligations.KeysOf255GiveBrightnessOne : Prop :=
  ∀ (cfg : Config) (p : Color), RampLaws (ramp cfg) →
    pixelRecord (rampTable cfg 255) (rampTable cfg 255) (rampTable cfg 255) p =
      .wireLedB1 ((ramp cfg p.b 255).setWidth 8) ((ramp cfg p.g 255).setWidth 8) ((ramp cfg p.r 255).setWidth 8)

/-- R129: the two literal descriptions a render can return, an empty Cycle's and a rotated Spectrum's, character by
character (0x7B and 0x7D are the braces). -/
def Obligations.DescriptionsGivenByTheSource : Prop :=
  ∀ (ms : BitVec 32) (buffer : List Color) (duration period : Nat),
    (∃ text, renderText (.cycle .nil duration) ms buffer = .ok (buffer, text) ∧
      text.toList = ['C', 'y', 'c', 'l', 'e', Char.ofNat 0x7B, Char.ofNat 0x7D]) ∧
    ∃ out text, renderText (.rotate .spectrum period) ms buffer = .ok (out, text) ∧
      text.toList = ['R', 'o', 't', 'a', 't', 'e', Char.ofNat 0x7B, 'S', 'p', 'e', 'c', 't', 'r', 'u', 'm',
        Char.ofNat 0x7D]

/-! ## Facts about the ramp's parts, and the exchanges of the host -/

/-- R158 (a) to (e), for every key and every reading of `round` that D10 names: the ranges of the parts; `y` at most
`inR * inR`, reached at level 255, and 0 at the cutoff; the bias below `inR * inR`; the cubic region gives the cutoff at
the cutoff and the key at level 255; and it is flat just above the cutoff for the keys 7905 and 255. -/
def Obligations.RampPartsStayInTheirRanges : Prop :=
  (∀ (m : RampRounding) (k : Nat), 255 ≤ k → k ≤ 7905 →
    (3 ≤ linearCut k ∧ linearCut k ≤ 79) ∧ (176 ≤ inRange k ∧ inRange k ≤ 252) ∧
    (252 ≤ outRange k ∧ outRange k ≤ 7826) ∧ (88 ≤ cubeOffset k ∧ cubeOffset k ≤ 126) ∧
    linearCut k + inRange k = 255 ∧ linearCut k + outRange k = k ∧
    (∀ l, l ≤ 255 → cubeQuotient l k ≤ inRange k * inRange k) ∧ cubeQuotient 255 k = inRange k * inRange k ∧
    cubeQuotient (linearCut k) k = 0 ∧ roundingBias m (inRange k) < inRange k * inRange k ∧
    cubicRamp m (linearCut k) k = linearCut k ∧ cubicRamp m 255 k = k) ∧
  (∀ m : RampRounding, cubicRamp m 79 7905 = 79 ∧ cubicRamp m 80 7905 = 79 ∧ cubicRamp m 3 255 = 3 ∧
    cubicRamp m 4 255 = 3)

/-- R107, `RDFRAME`: in every state, `RDREG 4` and then as many `RDOUT`s as it answered give the `OUTLEN` bytes of the held
frame in order, and nothing changes. -/
def Obligations.RdframeReadsTheHeldFrame : Prop :=
  ∀ s : State, ∃ t, issueRdframe s = .next (t, (List.range s.outlen.toNat).map (memRead s.out)) ∧ UnchangedBut [] s t

/-- R105, the source's `encode(buffer, ceilingR, ceilingG, ceilingB) -> bytes`: with as many pixels as the buffer has, its
commands leave the three ceilings and the buffer in the block and give back the frame of that buffer under those ceilings;
NPIX, STATUS and CAUSE are unchanged. A `WPIX` for every pixel is the model's choice (log 25). -/
def Obligations.EncodeCallReturnsTheFrame : Prop :=
  ∀ (s : State) (buffer : List Color) (cR cG cB : Half), Inv s → s.npix.toNat = buffer.length →
    ∃ t, issueEncodeCall buffer cR cG cB s =
        .next (t, encodeFrame buffer (rampTable s.cfg (normalizeCeil cR)) (rampTable s.cfg (normalizeCeil cG))
          (rampTable s.cfg (normalizeCeil cB))) ∧
      t.ceilR = cR ∧ t.ceilG = cG ∧ t.ceilB = cB ∧ t.pixels = buffer ∧
      UnchangedBut [.ceilR, .ceilG, .ceilB, .pix, .cache, .out, .outlen] s t

/-- R107, `TICK`, and R134: with as many pixels as the rendered buffer has, the exchange gives back the frame of the buffer
under the current ceilings; the ceilings, NPIX, STATUS and CAUSE are unchanged. The model's choices: black positions are
skipped (log 15), the order is ascending (log 26). -/
def Obligations.TickReturnsTheFrame : Prop :=
  ∀ (s : State) (buffer : List Color), Inv s → s.npix.toNat = buffer.length →
    ∃ t, issueTick buffer s =
        .next (t, encodeFrame buffer (rampTable s.cfg (normalizeCeil s.ceilR))
          (rampTable s.cfg (normalizeCeil s.ceilG)) (rampTable s.cfg (normalizeCeil s.ceilB))) ∧
      t.pixels = buffer ∧ UnchangedBut [.pix, .cache, .out, .outlen] s t
end

