-- ==== Sys2Proof/Laws/RampCurve.lean ====
section
/-! SUPPORT. The curve over natural numbers: the ranges of its parts (R152, R158), and that a value of `rampNat`
survives being put into 16 bits. -/

namespace Sys2Proof.Machine

/-- A key lies in 255..7905 (R150). -/
theorem normalize_range (c : Half) : 255 ≤ (normalizeCeil c).toNat ∧ (normalizeCeil c).toNat ≤ 7905 := by
  unfold normalizeCeil
  split
  · decide
  · rename_i h
    rw [not_or] at h
    have h2 : ¬ (7905 < c.toNat) := h.2
    split
    · decide
    · rename_i h3
      have h4 : ¬ (c.toNat < 255) := h3
      omega

/-- `Normalize` leaves a key as it is (R150). -/
theorem normalize_of_key {c : Half} (h1 : 255 ≤ c.toNat) (h2 : c.toNat ≤ 7905) : normalizeCeil c = c := by
  have e0 : ¬ (c = 0 ∨ Config.hwMax < c) := by
    rintro (rfl | h)
    · exact absurd h1 (by decide)
    · have : 7905 < c.toNat := h
      omega
  have e1 : ¬ (c < Config.minCeil) := fun h => by
    have : c.toNat < 255 := h
    omega
  rw [normalizeCeil, if_neg e0, if_neg e1]

/-- 3 <= `cut` <= 79 over all keys (R152, R158(a)). -/
theorem linearCut_range {k : Nat} (h1 : 255 ≤ k) (h2 : k ≤ 7905) : 3 ≤ linearCut k ∧ linearCut k ≤ 79 := by
  unfold linearCut
  omega

/-- Every reading of the rounding has a bias below `inR * inR` (R158(c), D10). -/
theorem roundingBias_lt (m : RampRounding) {inR : Nat} (h : 0 < inR) : roundingBias m inR < inR * inR := by
  have hsq : 0 < inR * inR := Nat.mul_pos h h
  cases m with
  | offSquared =>
    have hd : inR / 2 < inR := by omega
    exact Nat.mul_lt_mul'' hd hd
  | truncate => exact hsq
  | halfUp =>
    show inR * inR / 2 < inR * inR
    omega

/-- Two floor divisions by `d` are one by `d * d`; a bias below `d * d` disappears at full scale (R158(d)). -/
theorem full_scale_div {d o b : Nat} (h : 0 < d) (hb : b < d * d) : (d * d * o + b) / d / d = o := by
  rw [Nat.div_div_eq_div_mul, Nat.mul_add_div (Nat.mul_pos h h), Nat.div_eq_of_lt hb, Nat.add_zero]

/-- `y <= inR * inR` while `x <= inR` (R158(b)). -/
theorem cube_quotient_le {x d : Nat} (hd : 0 < d) (hx : x ≤ d) : (x * x * x + d / 2) / d ≤ d * d := by
  have hc : x * x * x ≤ d * d * d := Nat.mul_le_mul (Nat.mul_le_mul hx hx) hx
  have hlt : (x * x * x + d / 2) / d < d * d + 1 := by
    rw [Nat.div_lt_iff_lt_mul hd, Nat.add_mul, Nat.one_mul]
    omega
  omega

theorem rampNat_zero (body : RampBody) (k : Nat) : rampNat body 0 k = 0 := rfl

theorem rampNat_linear {body : RampBody} {l k : Nat} (h0 : l ≠ 0) (h : l < linearCut k) : rampNat body l k = l := by
  rw [rampNat, if_neg h0, if_pos h]

theorem rampNat_cubic {body : RampBody} {l k : Nat} (h0 : l ≠ 0) (h : ¬ l < linearCut k) :
    rampNat body l k = cubicRegion body l k := by
  rw [rampNat, if_neg h0, if_neg h]

/-- `inR` is not 0 for a key, so no division by zero occurs (R158(a)). -/
theorem inRange_pos {k : Nat} (h1 : 255 ≤ k) (h2 : k ≤ 7905) : 0 < inRange k := by
  have := linearCut_range h1 h2
  unfold inRange
  omega

/-- The cubic region never leaves the key (R154, R158). -/
theorem cubicRamp_le_key (m : RampRounding) {l k : Nat} (hk1 : 255 ≤ k) (hk2 : k ≤ 7905) (hl : l ≤ 255) :
    cubicRamp m l k ≤ k := by
  have hc := linearCut_range hk1 hk2
  have hd := inRange_pos hk1 hk2
  have hy : cubeQuotient l k ≤ inRange k * inRange k :=
    cube_quotient_le hd (by unfold inRange; omega)
  have hle : (cubeQuotient l k * outRange k + roundingBias m (inRange k)) / inRange k / inRange k ≤ outRange k :=
    calc _ ≤ (inRange k * inRange k * outRange k + roundingBias m (inRange k)) / inRange k / inRange k :=
        Nat.div_le_div_right (Nat.div_le_div_right (Nat.add_le_add_right (Nat.mul_le_mul_right _ hy) _))
      _ = outRange k := full_scale_div hd (roundingBias_lt m hd)
  have hsum : linearCut k + outRange k = k := by
    unfold outRange
    omega
  unfold cubicRamp
  omega

/-- The whole curve of R154's formula never leaves the key (R155). -/
theorem rampNat_le_key (m : RampRounding) {l k : Nat} (hk1 : 255 ≤ k) (hk2 : k ≤ 7905) (hl : l ≤ 255) :
    rampNat (.formula m) l k ≤ k := by
  by_cases h0 : l = 0
  · subst h0
    exact Nat.zero_le _
  · by_cases h : l < linearCut k
    · rw [rampNat_linear h0 h]
      omega
    · rw [rampNat_cubic h0 h]
      exact cubicRamp_le_key m hk1 hk2 hl

/-- A tabulated value is a u16. -/
theorem tabulatedRamp_lt (rows : Vector RampTable 7651) (l k : Nat) : tabulatedRamp rows l k < 2 ^ 16 := by
  unfold tabulatedRamp
  split
  · exact BitVec.isLt _
  · decide

/-- Reading the table made from `f` gives the values of `f` (R161). -/
theorem tabulatedRamp_tabulate (f : Byte → Half → Half) (l : Byte) {k : Half} (h1 : 255 ≤ k.toNat)
    (h2 : k.toNat ≤ 7905) : cubicRegion (tabulate f) l.toNat k.toNat = (f l k).toNat := by
  have hl : l.toNat < 256 := l.isLt
  have hk : k.toNat - 255 + 255 = k.toNat := by omega
  simp only [cubicRegion, tabulate, tabulatedRamp]
  rw [dif_pos ⟨by omega, hl⟩]
  simp only [Vector.get_ofFn, hk, BitVec.ofNat_toNat, BitVec.setWidth_eq]

/-- Whatever the body, the curve at a key and a level fits 16 bits (R157). -/
theorem rampNat_lt (body : RampBody) {l k : Nat} (hk1 : 255 ≤ k) (hk2 : k ≤ 7905) (hl : l ≤ 255) :
    rampNat body l k < 2 ^ 16 := by
  cases body with
  | formula m =>
    have := rampNat_le_key m hk1 hk2 hl
    omega
  | table rows =>
    unfold rampNat
    split
    · decide
    · split
      · omega
      · exact tabulatedRamp_lt rows l k

/-- A ramped value, read as a number, is the curve's value: nothing is lost in 16 bits (R159). -/
theorem ramp_toNat (cfg : Config) (l : Byte) (c : Half) :
    (ramp cfg l c).toNat = rampNat cfg.rampBody l.toNat (normalizeCeil c).toNat := by
  obtain ⟨h1, h2⟩ := normalize_range c
  rw [ramp, BitVec.toNat_ofNat, Nat.mod_eq_of_lt (rampNat_lt cfg.rampBody h1 h2 (Nat.le_of_lt_succ l.isLt))]

/-- Entry `l` of the table made for `k` is `Ramp(l, k)` (R157). -/
theorem tableEntry_rampTable (cfg : Config) (k : Half) (l : Byte) : tableEntry (rampTable cfg k) l = ramp cfg l k := by
  unfold tableEntry rampTable
  simp only [Vector.getElem_mk, List.getElem_toArray, List.getElem_map, List.getElem_range, BitVec.ofNat_toNat,
    BitVec.setWidth_eq]

end Sys2Proof.Machine
end

