-- ==== Sys2Proof/Laws/Cache.lean ====
section
/-! SUPPORT. What one cache access can do (R172 to R174), and that it keeps the cache invariants (R34). -/

namespace Sys2Proof.Machine

/-- The whole behaviour of an access: a hit on the first entry with the key, or a miss because no entry has it. -/
theorem cacheAccess_cases (cfg : Config) (cache : List CacheEntry) (c : Half) :
    (∃ e, e ∈ cache ∧ e.key = normalizeCeil c ∧
        cacheAccess cfg cache c = ⟨true, e.table, e :: cache.eraseP (fun e => e.key == normalizeCeil c)⟩) ∨
    ((∀ e ∈ cache, e.key ≠ normalizeCeil c) ∧
        cacheAccess cfg cache c =
          ⟨false, rampTable cfg (normalizeCeil c), ⟨normalizeCeil c, rampTable cfg (normalizeCeil c)⟩ ::
            (if cache.length = 6 then cache.dropLast else cache)⟩) := by
  unfold cacheAccess
  cases h : cache.find? (fun e => e.key == normalizeCeil c) with
  | some e =>
    refine .inl ⟨e, List.mem_of_find?_eq_some h, ?_, by simp only [h]⟩
    simpa using List.find?_some h
  | none =>
    refine .inr ⟨?_, by simp only [h]; rfl⟩
    simpa using h

/-- The accessed key is at rank 0 afterwards (R172). -/
theorem cacheAccess_head (cfg : Config) (cache : List CacheEntry) (c : Half) :
    (cacheKeys (cacheAccess cfg cache c).cache).head? = some (normalizeCeil c) := by
  rcases cacheAccess_cases cfg cache c with ⟨e, _, hk, h⟩ | ⟨_, h⟩
  · simp [h, cacheKeys, hk]
  · simp [h, cacheKeys]

theorem cacheKeys_eraseP (cache : List CacheEntry) (k : Half) :
    cacheKeys (cache.eraseP fun e => e.key == k) = (cacheKeys cache).erase k := by
  induction cache with
  | nil => rfl
  | cons e es ih =>
    unfold cacheKeys at ih ⊢
    by_cases h : e.key = k
    · simp [h]
    · simp [h, ih]

/-- The keys after an access: the accessed key first, then the others in their order, at most six in all
(R173, R174). -/
theorem cacheKeys_cacheAccess (cfg : Config) {cache : List CacheEntry} (hlen : cache.length ≤ 6) (c : Half) :
    cacheKeys (cacheAccess cfg cache c).cache = normalizeCeil c :: ((cacheKeys cache).erase (normalizeCeil c)).take 5 := by
  rcases cacheAccess_cases cfg cache c with ⟨e, he, hk, h⟩ | ⟨hne, h⟩
  · have hmem : normalizeCeil c ∈ cacheKeys cache := by
      rw [← hk]
      exact List.mem_map_of_mem he
    have hl : ((cacheKeys cache).erase (normalizeCeil c)).length ≤ 5 := by
      rw [List.length_erase_of_mem hmem]
      simp only [cacheKeys, List.length_map]
      omega
    rw [List.take_of_length_le hl, h, ← cacheKeys_eraseP]
    simp only [cacheKeys, List.map_cons, hk]
  · have hnm : normalizeCeil c ∉ cacheKeys cache := by
      simp only [cacheKeys, List.mem_map, not_exists, not_and]
      exact fun e he => hne e he
    rw [List.erase_of_not_mem hnm, h]
    simp only [cacheKeys, List.map_cons, List.cons.injEq, true_and]
    split
    · rw [List.map_dropLast, List.dropLast_eq_take, List.length_map, ‹cache.length = 6›]
    · rw [List.take_of_length_le (by rw [List.length_map]; omega)]

/-- Whatever the cache holds, an access returns the table of the accessed key, if every cached table is the table of
its key (R34(d), R179). -/
theorem cacheAccess_table {cfg : Config} {cache : List CacheEntry} (h : CacheOk cfg cache) (c : Half) :
    (cacheAccess cfg cache c).table = rampTable cfg (normalizeCeil c) := by
  rcases cacheAccess_cases cfg cache c with ⟨e, he, hk, heq⟩ | ⟨_, heq⟩
  · rw [heq, ← hk]
    exact h.tableOfKey e he
  · rw [heq]

/-- An access hits exactly when the key is cached (R172, R178). -/
theorem cacheAccess_hit_iff (cfg : Config) (cache : List CacheEntry) (c : Half) :
    (cacheAccess cfg cache c).hit = true ↔ normalizeCeil c ∈ cacheKeys cache := by
  rcases cacheAccess_cases cfg cache c with ⟨e, he, hk, heq⟩ | ⟨hne, heq⟩
  · simp only [heq, true_iff]
    rw [← hk]
    exact List.mem_map_of_mem he
  · simp only [heq, Bool.false_eq_true, false_iff, cacheKeys, List.mem_map, not_exists, not_and]
    exact fun e he => hne e he

/-- The entries after an access: an old entry, or the one made for the accessed key (R173, R174). -/
theorem mem_cacheAccess {cfg : Config} {cache : List CacheEntry} {c : Half} {e : CacheEntry}
    (he : e ∈ (cacheAccess cfg cache c).cache) : e ∈ cache ∨ e = ⟨normalizeCeil c, rampTable cfg (normalizeCeil c)⟩ := by
  rcases cacheAccess_cases cfg cache c with ⟨f, hf, _, heq⟩ | ⟨_, heq⟩
  · simp only [heq] at he
    rcases List.mem_cons.mp he with rfl | he
    · exact .inl hf
    · exact .inl (List.mem_of_mem_eraseP he)
  · simp only [heq] at he
    rcases List.mem_cons.mp he with rfl | he
    · exact .inr rfl
    · split at he
      · exact .inl (List.mem_of_mem_dropLast he)
      · exact .inl he

/-- An access keeps the cache invariants (R34). -/
theorem cacheAccess_keeps_ok {cfg : Config} {cache : List CacheEntry} (h : CacheOk cfg cache) (c : Half) :
    CacheOk cfg (cacheAccess cfg cache c).cache := by
  have hkeys := cacheKeys_cacheAccess cfg h.atMostSix c
  have hlen : (cacheKeys (cacheAccess cfg cache c).cache).length ≤ 6 := by
    rw [hkeys]
    simp
  refine ⟨by simpa [cacheKeys] using hlen, ?_, ?_, ?_⟩
  · rw [hkeys, List.nodup_cons]
    have hnd := h.distinctKeys
    exact ⟨fun hm => hnd.not_mem_erase (List.mem_of_mem_take hm), (hnd.erase _).sublist (List.take_sublist _ _)⟩
  · intro e he
    rcases mem_cacheAccess he with he | rfl
    · exact h.keyRange e he
    · exact normalize_range c
  · intro e he
    rcases mem_cacheAccess he with he | rfl
    · exact h.tableOfKey e he
    · rfl

end Sys2Proof.Machine
end

