-- ==== Sys2Proof/Laws/Decode.lean ====
section
/-! SUPPORT. The fields of a packed word, the nine rows of the opcode map, and that masks act on the fields. -/

namespace Sys2Proof

@[simp] theorem opField_pack (op a : Byte) (h : Half) (w : Word) : opField (pack op a h w) = op := by
  apply BitVec.eq_of_getLsbD_eq
  intro i hi
  simp only [opField, pack, BitVec.getLsbD_extractLsb', BitVec.getLsbD_append, hi, decide_true, Bool.true_and]
  have e1 : ¬ (56 + i < 32) := by omega
  have e2 : ¬ (56 + i - 32 < 16) := by omega
  have e3 : ¬ (56 + i - 32 - 16 < 8) := by omega
  have e4 : 56 + i - 32 - 16 - 8 = i := by omega
  simp [e1, e2, e3, e4]

@[simp] theorem aField_pack (op a : Byte) (h : Half) (w : Word) : aField (pack op a h w) = a := by
  apply BitVec.eq_of_getLsbD_eq
  intro i hi
  simp only [aField, pack, BitVec.getLsbD_extractLsb', BitVec.getLsbD_append, hi, decide_true, Bool.true_and]
  have e1 : ¬ (48 + i < 32) := by omega
  have e2 : ¬ (48 + i - 32 < 16) := by omega
  have e3 : 48 + i - 32 - 16 < 8 := by omega
  have e4 : 48 + i - 32 - 16 = i := by omega
  simp [e1, e2, e4, hi]

@[simp] theorem hField_pack (op a : Byte) (h : Half) (w : Word) : hField (pack op a h w) = h := by
  apply BitVec.eq_of_getLsbD_eq
  intro i hi
  simp only [hField, pack, BitVec.getLsbD_extractLsb', BitVec.getLsbD_append, hi, decide_true, Bool.true_and]
  have e1 : ¬ (32 + i < 32) := by omega
  have e2 : 32 + i - 32 < 16 := by omega
  have e3 : 32 + i - 32 = i := by omega
  simp [e1, e3, hi]

@[simp] theorem wField_pack (op a : Byte) (h : Half) (w : Word) : wField (pack op a h w) = w := by
  apply BitVec.eq_of_getLsbD_eq
  intro i hi
  simp only [wField, pack, BitVec.getLsbD_extractLsb', BitVec.getLsbD_append, hi, decide_true, Bool.true_and]
  simp [hi]

/-- Every word is packed from its four fields (R90). -/
theorem pack_fields (x : Wide) : pack (opField x) (aField x) (hField x) (wField x) = x := by
  apply BitVec.eq_of_getLsbD_eq
  intro i hi
  simp only [opField, aField, hField, wField, pack, BitVec.getLsbD_extractLsb', BitVec.getLsbD_append]
  by_cases h1 : i < 32
  · simp [h1]
  · by_cases h2 : i - 32 < 16
    · have : 32 + (i - 32) = i := by omega
      simp [h1, h2, this]
    · by_cases h3 : i - 32 - 16 < 8
      · have : 48 + (i - 32 - 16) = i := by omega
        simp [h1, h2, h3, this]
      · have h4 : i - 32 - 16 - 8 < 8 := by omega
        have : 56 + (i - 32 - 16 - 8) = i := by omega
        simp [h1, h2, h3, h4, this]

/-- Masking acts on the four fields. -/
theorem pack_and (op a : Byte) (h : Half) (w : Word) (op' a' : Byte) (h' : Half) (w' : Word) :
    pack op a h w &&& pack op' a' h' w' = pack (op &&& op') (a &&& a') (h &&& h') (w &&& w') := by
  apply BitVec.eq_of_getLsbD_eq
  intro i hi
  simp only [pack, BitVec.getLsbD_and, BitVec.getLsbD_append]
  split <;> [rfl; (split <;> [rfl; (split <;> rfl)])]

/-- Two packed words are equal exactly when their fields are. -/
theorem pack_inj {op a op' a' : Byte} {h h' : Half} {w w' : Word} :
    pack op a h w = pack op' a' h' w' ↔ op = op' ∧ a = a' ∧ h = h' ∧ w = w' := by
  constructor
  · intro e
    exact ⟨by simpa using congrArg opField e, by simpa using congrArg aField e, by simpa using congrArg hField e,
      by simpa using congrArg wField e⟩
  · rintro ⟨rfl, rfl, rfl, rfl⟩
    rfl

/-- The `op` value of each command (R92). -/
def opByte : Opcode → Byte
  | .setn => 0x01
  | .setceil => 0x02
  | .wpix => 0x03
  | .clrpix => 0x04
  | .ramp => 0x10
  | .lookup => 0x11
  | .encode => 0x20
  | .rdout => 0x21
  | .rdreg => 0x30

theorem opcodeOf_eq_some {b : Byte} {op : Opcode} : opcodeOf b = some op ↔ b = opByte op := by
  constructor
  · intro h
    unfold opcodeOf at h
    split at h
    · cases h; assumption
    split at h
    · cases h; assumption
    split at h
    · cases h; assumption
    split at h
    · cases h; assumption
    split at h
    · cases h; assumption
    split at h
    · cases h; assumption
    split at h
    · cases h; assumption
    split at h
    · cases h; assumption
    split at h
    · cases h; assumption
    · cases h
  · rintro rfl
    cases op <;> rfl

/-- The `match` value of a row is its `op` and zeros (R93). -/
theorem matchOf_eq_pack (op : Opcode) : matchOf op = pack (opByte op) 0 0 0 := by
  cases op <;> decide

/-- No two rows of the opcode map overlap: no word matches two of them (R93). -/
theorem rows_disjoint {x : Wide} {p q : Opcode} (hp : x &&& maskOf p = matchOf p) (hq : x &&& maskOf q = matchOf q) :
    p = q := by
  have key : ∀ o : Opcode, x &&& maskOf o = matchOf o → opField x = opByte o := by
    intro o ho
    have hm : ∃ a h w, maskOf o = pack 0xFF a h w := by
      cases o
      · exact ⟨0xFF, 0, 0xFFFFFFFF, by decide⟩
      · exact ⟨0xFC, 0, 0xFFFFFFFF, by decide⟩
      · exact ⟨0xFF, 0, 0xFF000000, by decide⟩
      · exact ⟨0xFF, 0xFFFF, 0xFFFFFFFF, by decide⟩
      · exact ⟨0, 0, 0xFFFFFFFF, by decide⟩
      · exact ⟨0, 0, 0xFFFFFFFF, by decide⟩
      · exact ⟨0xFF, 0xFFFF, 0xFFFFFFFF, by decide⟩
      · exact ⟨0xFF, 0xFFFF, 0, by decide⟩
      · exact ⟨0, 0xFFFF, 0xFFFFFFFF, by decide⟩
    obtain ⟨a, h, w, hm⟩ := hm
    rw [hm, matchOf_eq_pack, ← pack_fields x, pack_and, pack_inj] at ho
    have hff : opField x &&& 0xFF#8 = opField x := by
      have : (0xFF#8) = BitVec.allOnes 8 := by decide
      rw [this, BitVec.and_allOnes]
    exact hff.symm.trans ho.1
  have e := (key p hp).symm.trans (key q hq)
  revert e
  cases p <;> cases q <;> decide

end Sys2Proof
end

