-- ==== Sys2Proof/Laws/Memory.lean ====
section
/-! SUPPORT. The byte stores: a read after a write, the canonical form, and where cells lie. -/

namespace Sys2Proof.Machine

@[simp] theorem memRead_nil (a : Nat) : memRead [] a = unlistedByte := rfl

theorem memRead_cons (b : Nat) (v : Byte) (m : Memory) (a : Nat) :
    memRead ((b, v) :: m) a = if b = a then v else memRead m a := rfl

/-- A canonical store whose cells start at `lo` reads as unlisted below `lo`. -/
theorem memRead_below {m : Memory} {lo a : Nat} (h : memWfFrom lo m = true) (ha : a < lo) :
    memRead m a = unlistedByte := by
  induction m generalizing lo with
  | nil => rfl
  | cons c m ih =>
    obtain ⟨b, v⟩ := c
    simp only [memWfFrom, Bool.and_eq_true, decide_eq_true_eq] at h
    rw [memRead_cons, if_neg (by omega)]
    exact ih h.2 (by omega)

/-- The canonical form with a lower start. -/
theorem memWfFrom_mono {m : Memory} {lo lo' : Nat} (h : memWfFrom lo m = true) (hl : lo' ≤ lo) :
    memWfFrom lo' m = true := by
  cases m with
  | nil => rfl
  | cons c m =>
    obtain ⟨b, v⟩ := c
    simp only [memWfFrom, Bool.and_eq_true, decide_eq_true_eq] at h ⊢
    exact ⟨⟨by omega, h.1.2⟩, h.2⟩

/-- A write into a canonical store changes the byte at its address and no other. -/
theorem memRead_memWrite {m : Memory} {lo : Nat} (h : memWfFrom lo m = true) (a : Nat) (v : Byte) (x : Nat) :
    memRead (memWrite m a v) x = if x = a then v else memRead m x := by
  induction m generalizing lo with
  | nil =>
    unfold memWrite
    split
    · subst v
      split <;> rfl
    · rw [memRead_cons]
      by_cases hx : x = a
      · simp [hx]
      · simp [hx, Ne.symm hx]
  | cons c m ih =>
    obtain ⟨b, w⟩ := c
    have h' := h
    simp only [memWfFrom, Bool.and_eq_true, decide_eq_true_eq] at h'
    unfold memWrite
    by_cases hab : a < b
    · have hbelow : memRead ((b, w) :: m) a = unlistedByte :=
        memRead_below (lo := b) (by simp [memWfFrom, h'.1.2, h'.2]) hab
      simp only [if_pos hab]
      split
      · subst v
        by_cases hx : x = a
        · simp [hx, hbelow]
        · simp [hx]
      · rw [memRead_cons]
        by_cases hx : x = a
        · simp [hx]
        · simp [hx, Ne.symm hx]
    · simp only [if_neg hab]
      by_cases hab' : a = b
      · subst hab'
        simp only [if_true]
        split
        · subst v
          by_cases hx : x = a
          · subst hx
            rw [memRead_below h'.2 (by omega)]
            simp
          · rw [memRead_cons, if_neg (Ne.symm hx), if_neg hx]
        · rw [memRead_cons, memRead_cons]
          by_cases hx : x = a
          · simp [hx]
          · simp [hx, Ne.symm hx]
      · simp only [if_neg hab']
        rw [memRead_cons, memRead_cons, ih h'.2]
        by_cases hx : x = a
        · subst hx
          rw [if_neg (by omega)]
          simp
        · simp [hx]

/-- In any store, canonical or not, a write leaves every other byte as it reads. -/
theorem memRead_memWrite_ne (m : Memory) {a x : Nat} (h : x ≠ a) (v : Byte) :
    memRead (memWrite m a v) x = memRead m x := by
  induction m with
  | nil =>
    unfold memWrite
    split
    · rfl
    · rw [memRead_cons, if_neg (Ne.symm h)]
  | cons c m ih =>
    obtain ⟨b, w⟩ := c
    unfold memWrite
    split
    · split
      · rfl
      · rw [memRead_cons, if_neg (Ne.symm h)]
    · split
      · subst_vars
        split
        · rw [memRead_cons, if_neg (Ne.symm h)]
        · rw [memRead_cons, memRead_cons, if_neg (Ne.symm h), if_neg (Ne.symm h)]
      · rw [memRead_cons, memRead_cons, ih]

theorem memWfFrom_memWrite {m : Memory} {lo : Nat} (h : memWfFrom lo m = true) {a : Nat} (ha : lo ≤ a) (v : Byte) :
    memWfFrom lo (memWrite m a v) = true := by
  induction m generalizing lo with
  | nil =>
    unfold memWrite
    split
    · rfl
    · simp [memWfFrom, *]
  | cons c m ih =>
    obtain ⟨b, w⟩ := c
    have h' := h
    simp only [memWfFrom, Bool.and_eq_true, decide_eq_true_eq] at h'
    unfold memWrite
    split
    · split
      · exact h
      · simp only [memWfFrom, Bool.and_eq_true, decide_eq_true_eq]
        exact ⟨⟨ha, ‹_›⟩, ⟨by omega, h'.1.2⟩, h'.2⟩
    · split
      · split
        · exact memWfFrom_mono h'.2 (by omega)
        · simp only [memWfFrom, Bool.and_eq_true, decide_eq_true_eq]
          subst_vars
          exact ⟨⟨ha, ‹_›⟩, h'.2⟩
      · simp only [memWfFrom, Bool.and_eq_true, decide_eq_true_eq]
        exact ⟨h'.1, ih h'.2 (by omega)⟩

/-- Every write keeps the canonical form. -/
theorem memWrite_wf {m : Memory} (h : m.wf = true) (a : Nat) (v : Byte) : Memory.wf (memWrite m a v) = true :=
  memWfFrom_memWrite h (Nat.zero_le a) v

/-- A write adds no cell but at its address. -/
theorem mem_of_mem_memWrite {m : Memory} {a : Nat} {v : Byte} {c : Host.Cell} (h : c ∈ memWrite m a v) :
    c = (a, v) ∨ c ∈ m := by
  induction m with
  | nil =>
    unfold memWrite at h
    split at h
    · exact absurd h (by simp)
    · exact .inl (by simpa using h)
  | cons d m ih =>
    obtain ⟨b, w⟩ := d
    unfold memWrite at h
    split at h
    · split at h
      · exact .inr h
      · simpa using h
    · split at h
      · split at h
        · exact .inr (List.mem_cons_of_mem _ h)
        · rcases List.mem_cons.mp h with h | h
          · exact .inl h
          · exact .inr (List.mem_cons_of_mem _ h)
      · rcases List.mem_cons.mp h with h | h
        · exact .inr (by simp [h])
        · rcases ih h with h | h
          · exact .inl h
          · exact .inr (List.mem_cons_of_mem _ h)

theorem memOfBytes_wfFrom (a : Nat) (bs : List Byte) : memWfFrom a (memOfBytes a bs) = true := by
  induction bs generalizing a with
  | nil => rfl
  | cons v vs ih =>
    unfold memOfBytes
    split
    · exact memWfFrom_mono (ih (a + 1)) (by omega)
    · simp [memWfFrom, *]

/-- A store made from bytes is canonical. -/
theorem memOfBytes_wf (bs : List Byte) : Memory.wf (memOfBytes 0 bs) = true := memOfBytes_wfFrom 0 bs

/-- A store made from bytes reads as those bytes. -/
theorem memRead_memOfBytes (a : Nat) (bs : List Byte) (j : Nat) :
    memRead (memOfBytes a bs) (a + j) = bs.getD j unlistedByte := by
  induction bs generalizing a j with
  | nil => simp [memOfBytes]
  | cons v vs ih =>
    unfold memOfBytes
    cases j with
    | zero =>
      split
      · rw [memRead_below (memOfBytes_wfFrom (a + 1) vs) (by omega)]
        simp [*]
      · simp [memRead_cons]
    | succ j =>
      have e : a + (j + 1) = (a + 1) + j := by omega
      split
      · rw [e, ih]
        simp
      · rw [memRead_cons, if_neg (by omega), e, ih]
        simp

/-- A store made from bytes has no cell past them. -/
theorem memOfBytes_bounded (a : Nat) (bs : List Byte) : ∀ c ∈ memOfBytes a bs, c.1 < a + bs.length := by
  induction bs generalizing a with
  | nil => simp [memOfBytes]
  | cons v vs ih =>
    intro c hc
    unfold memOfBytes at hc
    split at hc
    · have := ih (a + 1) c hc
      simp only [List.length_cons]
      omega
    · rcases List.mem_cons.mp hc with h | h
      · subst h
        simp
      · have := ih (a + 1) c h
        simp only [List.length_cons]
        omega

/-! ## The pixel store -/

@[simp] theorem pixelAt_blackStore (i : Nat) : pixelAt blackStore i = Color.black := rfl

/-- In any store, a pixel write leaves every byte outside the pixel's three as it reads (R61, R222). -/
theorem memRead_pixelWrite_ne (m : Memory) {i a : Nat} (h : a < 3 * i ∨ 3 * i + 2 < a) (c : Color) :
    memRead (pixelWrite m i c) a = memRead m a := by
  unfold pixelWrite
  rw [memRead_memWrite_ne _ (by omega), memRead_memWrite_ne _ (by omega), memRead_memWrite_ne _ (by omega)]

theorem pixelWrite_wf {m : Memory} (h : m.wf = true) (i : Nat) (c : Color) :
    Memory.wf (pixelWrite m i c) = true :=
  memWrite_wf (memWrite_wf (memWrite_wf h _ _) _ _) _ _

/-- Writing a pixel changes that pixel and no other (R222, R61). -/
theorem pixelAt_pixelWrite {m : Memory} (h : m.wf = true) (i : Nat) (c : Color) (p : Nat) :
    pixelAt (pixelWrite m i c) p = if p = i then c else pixelAt m p := by
  have h1 := memWrite_wf h (3 * i) c.r
  have h2 := memWrite_wf h1 (3 * i + 1) c.g
  unfold pixelAt pixelWrite
  simp only [memRead_memWrite h2, memRead_memWrite h1, memRead_memWrite h]
  by_cases hp : p = i
  · subst hp
    simp
  · have e0 : 3 * p ≠ 3 * i := by omega
    have e1 : 3 * p ≠ 3 * i + 1 := by omega
    have e2 : 3 * p ≠ 3 * i + 2 := by omega
    have e3 : 3 * p + 1 ≠ 3 * i := by omega
    have e5 : 3 * p + 2 ≠ 3 * i := by omega
    have e6 : 3 * p + 2 ≠ 3 * i + 1 := by omega
    simp [hp, e0, e1, e2, e3, e5, e6]

/-- Writing a pixel adds no cell outside its three bytes (R61). -/
theorem mem_of_mem_pixelWrite {m : Memory} {i : Nat} {c : Color} {x : Host.Cell} (h : x ∈ pixelWrite m i c) :
    (3 * i ≤ x.1 ∧ x.1 < 3 * i + 3) ∨ x ∈ m := by
  rcases mem_of_mem_memWrite h with h | h
  · subst h
    exact .inl (by simp)
  · rcases mem_of_mem_memWrite h with h | h
    · subst h
      exact .inl (by simp)
    · rcases mem_of_mem_memWrite h with h | h
      · subst h
        exact .inl (by simp)
      · exact .inr h

end Sys2Proof.Machine
end

