-- ==== Sys2Proof/Laws/State.lean ====
section
/-! SUPPORT. What each named update does to each field of State: one lemma per field per update, so that no later proof
unfolds a record update. -/

namespace Sys2Proof.Machine

/-! `respond OK` writes the response only (R96). -/

@[simp] theorem respondOk_cfg (s : State) (v : Word) (f : HitFlags) : (respondOk s v f).cfg = s.cfg := rfl
@[simp] theorem respondOk_npix (s : State) (v : Word) (f : HitFlags) : (respondOk s v f).npix = s.npix := rfl
@[simp] theorem respondOk_ceilR (s : State) (v : Word) (f : HitFlags) : (respondOk s v f).ceilR = s.ceilR := rfl
@[simp] theorem respondOk_ceilG (s : State) (v : Word) (f : HitFlags) : (respondOk s v f).ceilG = s.ceilG := rfl
@[simp] theorem respondOk_ceilB (s : State) (v : Word) (f : HitFlags) : (respondOk s v f).ceilB = s.ceilB := rfl
@[simp] theorem respondOk_pix (s : State) (v : Word) (f : HitFlags) : (respondOk s v f).pix = s.pix := rfl
@[simp] theorem respondOk_cache (s : State) (v : Word) (f : HitFlags) : (respondOk s v f).cache = s.cache := rfl
@[simp] theorem respondOk_out (s : State) (v : Word) (f : HitFlags) : (respondOk s v f).out = s.out := rfl
@[simp] theorem respondOk_outlen (s : State) (v : Word) (f : HitFlags) : (respondOk s v f).outlen = s.outlen := rfl
@[simp] theorem respondOk_status (s : State) (v : Word) (f : HitFlags) : (respondOk s v f).status = s.status := rfl
@[simp] theorem respondOk_cause (s : State) (v : Word) (f : HitFlags) : (respondOk s v f).cause = s.cause := rfl
@[simp] theorem respondOk_response (s : State) (v : Word) (f : HitFlags) : (respondOk s v f).response = some (okWord v f) := rfl
@[simp] theorem respondOk_port (s : State) (v : Word) (f : HitFlags) : (respondOk s v f).port = s.port := rfl

/-! A fault writes `STATUS`, `CAUSE` and the response only (R254). -/

@[simp] theorem raiseFault_cfg (s : State) (c : Cause) : (raiseFault s c).cfg = s.cfg := rfl
@[simp] theorem raiseFault_npix (s : State) (c : Cause) : (raiseFault s c).npix = s.npix := rfl
@[simp] theorem raiseFault_ceilR (s : State) (c : Cause) : (raiseFault s c).ceilR = s.ceilR := rfl
@[simp] theorem raiseFault_ceilG (s : State) (c : Cause) : (raiseFault s c).ceilG = s.ceilG := rfl
@[simp] theorem raiseFault_ceilB (s : State) (c : Cause) : (raiseFault s c).ceilB = s.ceilB := rfl
@[simp] theorem raiseFault_pix (s : State) (c : Cause) : (raiseFault s c).pix = s.pix := rfl
@[simp] theorem raiseFault_cache (s : State) (c : Cause) : (raiseFault s c).cache = s.cache := rfl
@[simp] theorem raiseFault_out (s : State) (c : Cause) : (raiseFault s c).out = s.out := rfl
@[simp] theorem raiseFault_outlen (s : State) (c : Cause) : (raiseFault s c).outlen = s.outlen := rfl
@[simp] theorem raiseFault_status (s : State) (c : Cause) : (raiseFault s c).status = 1 := rfl
@[simp] theorem raiseFault_cause (s : State) (c : Cause) : (raiseFault s c).cause = if s.cause = 0 then causeCode c else s.cause := rfl
@[simp] theorem raiseFault_response (s : State) (c : Cause) : (raiseFault s c).response = some (faultWord c) := rfl
@[simp] theorem raiseFault_port (s : State) (c : Cause) : (raiseFault s c).port = s.port := rfl

/-! `SETN` writes `NPIX`, `PIX`, `OUT`, `OUTLEN` (R220). -/

@[simp] theorem setPixelCount_cfg (s : State) (n : Half) : (setPixelCount s n).cfg = s.cfg := rfl
@[simp] theorem setPixelCount_npix (s : State) (n : Half) : (setPixelCount s n).npix = n := rfl
@[simp] theorem setPixelCount_ceilR (s : State) (n : Half) : (setPixelCount s n).ceilR = s.ceilR := rfl
@[simp] theorem setPixelCount_ceilG (s : State) (n : Half) : (setPixelCount s n).ceilG = s.ceilG := rfl
@[simp] theorem setPixelCount_ceilB (s : State) (n : Half) : (setPixelCount s n).ceilB = s.ceilB := rfl
@[simp] theorem setPixelCount_pix (s : State) (n : Half) : (setPixelCount s n).pix = blackStore := rfl
@[simp] theorem setPixelCount_cache (s : State) (n : Half) : (setPixelCount s n).cache = s.cache := rfl
@[simp] theorem setPixelCount_out (s : State) (n : Half) : (setPixelCount s n).out = [] := rfl
@[simp] theorem setPixelCount_outlen (s : State) (n : Half) : (setPixelCount s n).outlen = 0 := rfl
@[simp] theorem setPixelCount_status (s : State) (n : Half) : (setPixelCount s n).status = s.status := rfl
@[simp] theorem setPixelCount_cause (s : State) (n : Half) : (setPixelCount s n).cause = s.cause := rfl
@[simp] theorem setPixelCount_response (s : State) (n : Half) : (setPixelCount s n).response = s.response := rfl
@[simp] theorem setPixelCount_port (s : State) (n : Half) : (setPixelCount s n).port = s.port := rfl

/-! `WPIX` writes `PIX` (R222). -/

@[simp] theorem setPixel_cfg (s : State) (i : Nat) (c : Color) : (setPixel s i c).cfg = s.cfg := rfl
@[simp] theorem setPixel_npix (s : State) (i : Nat) (c : Color) : (setPixel s i c).npix = s.npix := rfl
@[simp] theorem setPixel_ceilR (s : State) (i : Nat) (c : Color) : (setPixel s i c).ceilR = s.ceilR := rfl
@[simp] theorem setPixel_ceilG (s : State) (i : Nat) (c : Color) : (setPixel s i c).ceilG = s.ceilG := rfl
@[simp] theorem setPixel_ceilB (s : State) (i : Nat) (c : Color) : (setPixel s i c).ceilB = s.ceilB := rfl
@[simp] theorem setPixel_pix (s : State) (i : Nat) (c : Color) : (setPixel s i c).pix = pixelWrite s.pix i c := rfl
@[simp] theorem setPixel_cache (s : State) (i : Nat) (c : Color) : (setPixel s i c).cache = s.cache := rfl
@[simp] theorem setPixel_out (s : State) (i : Nat) (c : Color) : (setPixel s i c).out = s.out := rfl
@[simp] theorem setPixel_outlen (s : State) (i : Nat) (c : Color) : (setPixel s i c).outlen = s.outlen := rfl
@[simp] theorem setPixel_status (s : State) (i : Nat) (c : Color) : (setPixel s i c).status = s.status := rfl
@[simp] theorem setPixel_cause (s : State) (i : Nat) (c : Color) : (setPixel s i c).cause = s.cause := rfl
@[simp] theorem setPixel_response (s : State) (i : Nat) (c : Color) : (setPixel s i c).response = s.response := rfl
@[simp] theorem setPixel_port (s : State) (i : Nat) (c : Color) : (setPixel s i c).port = s.port := rfl

/-! `CLRPIX` writes `PIX` (R223). -/

@[simp] theorem clearPixels_cfg (s : State) : (clearPixels s).cfg = s.cfg := rfl
@[simp] theorem clearPixels_npix (s : State) : (clearPixels s).npix = s.npix := rfl
@[simp] theorem clearPixels_ceilR (s : State) : (clearPixels s).ceilR = s.ceilR := rfl
@[simp] theorem clearPixels_ceilG (s : State) : (clearPixels s).ceilG = s.ceilG := rfl
@[simp] theorem clearPixels_ceilB (s : State) : (clearPixels s).ceilB = s.ceilB := rfl
@[simp] theorem clearPixels_pix (s : State) : (clearPixels s).pix = blackStore := rfl
@[simp] theorem clearPixels_cache (s : State) : (clearPixels s).cache = s.cache := rfl
@[simp] theorem clearPixels_out (s : State) : (clearPixels s).out = s.out := rfl
@[simp] theorem clearPixels_outlen (s : State) : (clearPixels s).outlen = s.outlen := rfl
@[simp] theorem clearPixels_status (s : State) : (clearPixels s).status = s.status := rfl
@[simp] theorem clearPixels_cause (s : State) : (clearPixels s).cause = s.cause := rfl
@[simp] theorem clearPixels_response (s : State) : (clearPixels s).response = s.response := rfl
@[simp] theorem clearPixels_port (s : State) : (clearPixels s).port = s.port := rfl

/-! A cache access writes `CACHE` (R172). -/

@[simp] theorem setCache_cfg (s : State) (c : List CacheEntry) : (setCache s c).cfg = s.cfg := rfl
@[simp] theorem setCache_npix (s : State) (c : List CacheEntry) : (setCache s c).npix = s.npix := rfl
@[simp] theorem setCache_ceilR (s : State) (c : List CacheEntry) : (setCache s c).ceilR = s.ceilR := rfl
@[simp] theorem setCache_ceilG (s : State) (c : List CacheEntry) : (setCache s c).ceilG = s.ceilG := rfl
@[simp] theorem setCache_ceilB (s : State) (c : List CacheEntry) : (setCache s c).ceilB = s.ceilB := rfl
@[simp] theorem setCache_pix (s : State) (c : List CacheEntry) : (setCache s c).pix = s.pix := rfl
@[simp] theorem setCache_cache (s : State) (c : List CacheEntry) : (setCache s c).cache = c := rfl
@[simp] theorem setCache_out (s : State) (c : List CacheEntry) : (setCache s c).out = s.out := rfl
@[simp] theorem setCache_outlen (s : State) (c : List CacheEntry) : (setCache s c).outlen = s.outlen := rfl
@[simp] theorem setCache_status (s : State) (c : List CacheEntry) : (setCache s c).status = s.status := rfl
@[simp] theorem setCache_cause (s : State) (c : List CacheEntry) : (setCache s c).cause = s.cause := rfl
@[simp] theorem setCache_response (s : State) (c : List CacheEntry) : (setCache s c).response = s.response := rfl
@[simp] theorem setCache_port (s : State) (c : List CacheEntry) : (setCache s c).port = s.port := rfl

/-! `ENCODE` writes `OUT` and `OUTLEN` (R202). -/

@[simp] theorem setFrame_cfg (s : State) (bs : List Byte) (len : Nat) : (setFrame s bs len).cfg = s.cfg := rfl
@[simp] theorem setFrame_npix (s : State) (bs : List Byte) (len : Nat) : (setFrame s bs len).npix = s.npix := rfl
@[simp] theorem setFrame_ceilR (s : State) (bs : List Byte) (len : Nat) : (setFrame s bs len).ceilR = s.ceilR := rfl
@[simp] theorem setFrame_ceilG (s : State) (bs : List Byte) (len : Nat) : (setFrame s bs len).ceilG = s.ceilG := rfl
@[simp] theorem setFrame_ceilB (s : State) (bs : List Byte) (len : Nat) : (setFrame s bs len).ceilB = s.ceilB := rfl
@[simp] theorem setFrame_pix (s : State) (bs : List Byte) (len : Nat) : (setFrame s bs len).pix = s.pix := rfl
@[simp] theorem setFrame_cache (s : State) (bs : List Byte) (len : Nat) : (setFrame s bs len).cache = s.cache := rfl
@[simp] theorem setFrame_out (s : State) (bs : List Byte) (len : Nat) : (setFrame s bs len).out = memOfBytes 0 bs := rfl
@[simp] theorem setFrame_outlen (s : State) (bs : List Byte) (len : Nat) : (setFrame s bs len).outlen = BitVec.ofNat 19 len := rfl
@[simp] theorem setFrame_status (s : State) (bs : List Byte) (len : Nat) : (setFrame s bs len).status = s.status := rfl
@[simp] theorem setFrame_cause (s : State) (bs : List Byte) (len : Nat) : (setFrame s bs len).cause = s.cause := rfl
@[simp] theorem setFrame_response (s : State) (bs : List Byte) (len : Nat) : (setFrame s bs len).response = s.response := rfl
@[simp] theorem setFrame_port (s : State) (bs : List Byte) (len : Nat) : (setFrame s bs len).port = s.port := rfl

/-! The host presenting inputs writes the port (R70). -/

@[simp] theorem presentEvents_cfg (s : State) (es : List PortEvent) : (presentEvents s es).cfg = s.cfg := rfl
@[simp] theorem presentEvents_npix (s : State) (es : List PortEvent) : (presentEvents s es).npix = s.npix := rfl
@[simp] theorem presentEvents_ceilR (s : State) (es : List PortEvent) : (presentEvents s es).ceilR = s.ceilR := rfl
@[simp] theorem presentEvents_ceilG (s : State) (es : List PortEvent) : (presentEvents s es).ceilG = s.ceilG := rfl
@[simp] theorem presentEvents_ceilB (s : State) (es : List PortEvent) : (presentEvents s es).ceilB = s.ceilB := rfl
@[simp] theorem presentEvents_pix (s : State) (es : List PortEvent) : (presentEvents s es).pix = s.pix := rfl
@[simp] theorem presentEvents_cache (s : State) (es : List PortEvent) : (presentEvents s es).cache = s.cache := rfl
@[simp] theorem presentEvents_out (s : State) (es : List PortEvent) : (presentEvents s es).out = s.out := rfl
@[simp] theorem presentEvents_outlen (s : State) (es : List PortEvent) : (presentEvents s es).outlen = s.outlen := rfl
@[simp] theorem presentEvents_status (s : State) (es : List PortEvent) : (presentEvents s es).status = s.status := rfl
@[simp] theorem presentEvents_cause (s : State) (es : List PortEvent) : (presentEvents s es).cause = s.cause := rfl
@[simp] theorem presentEvents_response (s : State) (es : List PortEvent) : (presentEvents s es).response = s.response := rfl
@[simp] theorem presentEvents_port (s : State) (es : List PortEvent) : (presentEvents s es).port = s.port ++ es := rfl

/-! Placing the next word writes the port. -/

@[simp] theorem presentNext_cfg (s : State) (w : Wide) : (presentNext s w).cfg = s.cfg := rfl
@[simp] theorem presentNext_npix (s : State) (w : Wide) : (presentNext s w).npix = s.npix := rfl
@[simp] theorem presentNext_ceilR (s : State) (w : Wide) : (presentNext s w).ceilR = s.ceilR := rfl
@[simp] theorem presentNext_ceilG (s : State) (w : Wide) : (presentNext s w).ceilG = s.ceilG := rfl
@[simp] theorem presentNext_ceilB (s : State) (w : Wide) : (presentNext s w).ceilB = s.ceilB := rfl
@[simp] theorem presentNext_pix (s : State) (w : Wide) : (presentNext s w).pix = s.pix := rfl
@[simp] theorem presentNext_cache (s : State) (w : Wide) : (presentNext s w).cache = s.cache := rfl
@[simp] theorem presentNext_out (s : State) (w : Wide) : (presentNext s w).out = s.out := rfl
@[simp] theorem presentNext_outlen (s : State) (w : Wide) : (presentNext s w).outlen = s.outlen := rfl
@[simp] theorem presentNext_status (s : State) (w : Wide) : (presentNext s w).status = s.status := rfl
@[simp] theorem presentNext_cause (s : State) (w : Wide) : (presentNext s w).cause = s.cause := rfl
@[simp] theorem presentNext_response (s : State) (w : Wide) : (presentNext s w).response = s.response := rfl
@[simp] theorem presentNext_port (s : State) (w : Wide) : (presentNext s w).port = .command w :: s.port := rfl

/-! Reset writes everything but the parameters and the port (R280, R282). -/

@[simp] theorem resetInput_cfg (s : State) : (resetInput s).cfg = s.cfg := rfl
@[simp] theorem resetInput_npix (s : State) : (resetInput s).npix = 0 := rfl
@[simp] theorem resetInput_ceilR (s : State) : (resetInput s).ceilR = 0 := rfl
@[simp] theorem resetInput_ceilG (s : State) : (resetInput s).ceilG = 0 := rfl
@[simp] theorem resetInput_ceilB (s : State) : (resetInput s).ceilB = 0 := rfl
@[simp] theorem resetInput_pix (s : State) : (resetInput s).pix = [] := rfl
@[simp] theorem resetInput_cache (s : State) : (resetInput s).cache = [] := rfl
@[simp] theorem resetInput_out (s : State) : (resetInput s).out = [] := rfl
@[simp] theorem resetInput_outlen (s : State) : (resetInput s).outlen = 0 := rfl
@[simp] theorem resetInput_status (s : State) : (resetInput s).status = 0 := rfl
@[simp] theorem resetInput_cause (s : State) : (resetInput s).cause = 0 := rfl
@[simp] theorem resetInput_response (s : State) : (resetInput s).response = none := rfl
@[simp] theorem resetInput_port (s : State) : (resetInput s).port = s.port := rfl

end Sys2Proof.Machine
end

