-- ==== Sys2Proof/Laws/Ops.lean ====
section
/-! SUPPORT. One lemma per shared operation: everything it can answer. -/

namespace Sys2Proof.Machine

/-- A ceiling is written to the register of its channel, or the channel is 3 (R221). -/
theorem setCeiling_cases (s : State) (ch : BitVec 2) (c : Half) :
    (ch = 0 ∧ setCeiling s ch c = some { s with ceilR := c }) ∨
    (ch = 1 ∧ setCeiling s ch c = some { s with ceilG := c }) ∨
    (ch = 2 ∧ setCeiling s ch c = some { s with ceilB := c }) ∨
    (ch = 3 ∧ setCeiling s ch c = none) := by
  have h : ch = 0 ∨ ch = 1 ∨ ch = 2 ∨ ch = 3 := by
    revert ch
    decide
  rcases h with rfl | rfl | rfl | rfl
  · exact .inl ⟨rfl, rfl⟩
  · exact .inr (.inl ⟨rfl, rfl⟩)
  · exact .inr (.inr (.inl ⟨rfl, rfl⟩))
  · exact .inr (.inr (.inr ⟨rfl, rfl⟩))

theorem pixelIndex_of_lt {s : State} {i : Half} (h : i.toNat < s.npix.toNat) : pixelIndex s i = some i.toNat :=
  if_pos h

theorem pixelIndex_of_ge {s : State} {i : Half} (h : s.npix.toNat ≤ i.toNat) : pixelIndex s i = none :=
  if_neg (fun h' : i.toNat < s.npix.toNat => absurd h' (by omega))

theorem frameByte_of_lt {s : State} {j : Word} (h : j.toNat < s.outlen.toNat) :
    frameByte s j = some (memRead s.out j.toNat) := if_pos h

theorem frameByte_of_ge {s : State} {j : Word} (h : s.outlen.toNat ≤ j.toNat) : frameByte s j = none :=
  if_neg (by omega)

theorem countFits_iff (s : State) (n : Half) : countFits s n = true ↔ n.toNat ≤ s.cfg.pixCap.toNat := by
  unfold countFits
  rw [decide_eq_true_eq]
  exact Iff.rfl

/-- Registers 0 to 14 exist and no others (R24). -/
theorem readRegister_isSome (s : State) (num : Byte) : (readRegister s num).isSome = true ↔ num.toNat ≤ 14 := by
  have hlt : num.toNat < 256 := num.isLt
  by_cases h : num.toNat ≤ 14
  · simp only [h, iff_true]
    unfold readRegister
    generalize num.toNat = n at h
    interval_cases n <;> rfl
  · simp only [h, iff_false]
    unfold readRegister
    generalize num.toNat = n at h
    match n, h with
    | k + 15, _ => exact Bool.false_ne_true

/-- A count below 65536 fits a frame length into the 19 bits of `OUTLEN` (R191). -/
theorem frameLen_lt (n : Half) : frameLen n.toNat < 2 ^ 19 := by
  have := n.isLt
  unfold frameLen
  omega

@[simp] theorem length_pixels (s : State) : s.pixels.length = s.npix.toNat := by simp [State.pixels]

/-- The pixels depend on `NPIX` and the pixel store alone. -/
theorem pixels_congr {s t : State} (hn : t.npix = s.npix) (hp : t.pix = s.pix) : t.pixels = s.pixels := by
  unfold State.pixels
  rw [hn, hp]

end Sys2Proof.Machine
end

