-- ==== Sys2Proof/Laws/Step.lean ====
section
/-! SUPPORT. What a step can be: wait, reset, or a command word carried out; and what each meaning can answer. -/

namespace Sys2Proof.Machine

theorem step_idle {s : State} (h : s.port = []) : step s = .next s := by
  unfold step blockStep
  rw [h]

theorem step_reset {s : State} {rest : List PortEvent} (h : s.port = .reset :: rest) :
    step s = .next (resetInput { s with port := rest }) := by
  unfold step blockStep
  rw [h]
  rfl

theorem step_command {s : State} {w : Wide} {rest : List PortEvent} (h : s.port = .command w :: rest) :
    step s = runWord w { s with port := rest } := by
  unfold step blockStep
  rw [h]
  rfl

/-- The inversion of a step: it waits, it resets, it refuses a word, or it performs a decoded command. -/
theorem step_cases (s : State) :
    (s.port = [] ∧ step s = .next s) ∨
    (∃ rest, s.port = .reset :: rest ∧ step s = .next (resetInput { s with port := rest })) ∨
    (∃ w rest c, s.port = .command w :: rest ∧ decode w = .error c ∧
        step s = .next (raiseFault { s with port := rest } c)) ∨
    (∃ w rest i, s.port = .command w :: rest ∧ decode w = .ok i ∧ step s = exec i { s with port := rest }) := by
  rcases hp : s.port with _ | ⟨e, rest⟩
  · exact .inl ⟨rfl, step_idle hp⟩
  · cases e with
    | reset => exact .inr (.inl ⟨rest, rfl, step_reset hp⟩)
    | command w =>
      have h := step_command hp
      unfold runWord at h
      cases hd : decode w with
      | error c =>
        rw [hd] at h
        exact .inr (.inr (.inl ⟨w, rest, c, rfl, hd, h⟩))
      | ok i =>
        rw [hd] at h
        exact .inr (.inr (.inr ⟨w, rest, i, rfl, hd, h⟩))

/-- The next word of the host is the one `withFetchWord` places. -/
theorem withFetchWord_port (s : State) (nbits w : Nat) :
    (s.withFetchWord nbits w).port = .command (BitVec.ofNat 64 (w % 2 ^ nbits)) :: s.port := rfl

/-! ## What each meaning can answer -/

theorem execSetn_cases (n : Half) (s : State) :
    (n.toNat ≤ s.cfg.pixCap.toNat ∧ execSetn n s = .next (respondOk (setPixelCount s n) 0 noHits)) ∨
    (s.cfg.pixCap.toNat < n.toNat ∧ execSetn n s = .next (raiseFault s .capacity)) := by
  unfold execSetn
  by_cases h : n.toNat ≤ s.cfg.pixCap.toNat
  · exact .inl ⟨h, if_pos ((countFits_iff s n).mpr h)⟩
  · exact .inr ⟨by omega, if_neg (fun h' => h ((countFits_iff s n).mp h'))⟩

theorem execSetceil_cases (ch : BitVec 2) (c : Half) (s : State) :
    (ch = 0 ∧ execSetceil ch c s = .next (respondOk { s with ceilR := c } 0 noHits)) ∨
    (ch = 1 ∧ execSetceil ch c s = .next (respondOk { s with ceilG := c } 0 noHits)) ∨
    (ch = 2 ∧ execSetceil ch c s = .next (respondOk { s with ceilB := c } 0 noHits)) ∨
    (ch = 3 ∧ execSetceil ch c s = .next (raiseFault s .reservedField)) := by
  unfold execSetceil
  rcases setCeiling_cases s ch c with ⟨h, e⟩ | ⟨h, e⟩ | ⟨h, e⟩ | ⟨h, e⟩
  · exact .inl ⟨h, by rw [e]⟩
  · exact .inr (.inl ⟨h, by rw [e]⟩)
  · exact .inr (.inr (.inl ⟨h, by rw [e]⟩))
  · exact .inr (.inr (.inr ⟨h, by rw [e]⟩))

theorem execWpix_cases (i : Half) (r g b : Byte) (s : State) :
    (i.toNat < s.npix.toNat ∧ execWpix i r g b s = .next (respondOk (setPixel s i.toNat ⟨r, g, b⟩) 0 noHits)) ∨
    (s.npix.toNat ≤ i.toNat ∧ execWpix i r g b s = .next (raiseFault s .indexRange)) := by
  unfold execWpix
  by_cases h : i.toNat < s.npix.toNat
  · exact .inl ⟨h, by rw [pixelIndex_of_lt h]⟩
  · exact .inr ⟨by omega, by rw [pixelIndex_of_ge (by omega)]⟩

theorem execRdout_cases (j : Word) (s : State) :
    (j.toNat < s.outlen.toNat ∧
        execRdout j s = .next (respondOk s ((memRead s.out j.toNat).setWidth 32) noHits)) ∨
    (s.outlen.toNat ≤ j.toNat ∧ execRdout j s = .next (raiseFault s .indexRange)) := by
  unfold execRdout
  by_cases h : j.toNat < s.outlen.toNat
  · exact .inl ⟨h, by rw [frameByte_of_lt h]⟩
  · exact .inr ⟨by omega, by rw [frameByte_of_ge (by omega)]⟩

theorem execRdreg_cases (num : Byte) (s : State) :
    (∃ v, num.toNat ≤ 14 ∧ readRegister s num = some v ∧ execRdreg num s = .next (respondOk s v noHits)) ∨
    (14 < num.toNat ∧ execRdreg num s = .next (raiseFault s .badRegister)) := by
  unfold execRdreg
  have h := readRegister_isSome s num
  cases hr : readRegister s num with
  | some v => exact .inl ⟨v, h.mp (by rw [hr]; rfl), rfl, rfl⟩
  | none =>
    refine .inr ⟨?_, rfl⟩
    rw [hr] at h
    simp only [Option.isSome_none, Bool.false_eq_true, false_iff] at h
    omega

end Sys2Proof.Machine
end

