-- ==== Sys2Proof/Laws/HostAgent.lean ====
section
/-! SUPPORT. What issuing commands one after the other does: one command is `exec` of it, and a sequence is its parts in
order. -/

namespace Sys2Proof.Machine

@[simp] theorem andThen_next {α β : Type} (a : α) (f : α → Host.Outcome β Fault Refusal) :
    andThen (.next a) f = f a := rfl

/-- Issuing a command that decodes from its word is performing it; the pending inputs stay (R70, R95). -/
theorem issue_eq_exec {i : Instr} (h : decode (encode i) = .ok i) (s : State) : issue i s = exec i s := by
  rw [issue, step_command (w := encode i) (rest := s.port) rfl, runWord, h]
  rfl

theorem issueAll_nil (s : State) : issueAll [] s = .next (s, []) := rfl

/-- One command, then the others. -/
theorem issueAll_cons {i : Instr} {is : List Instr} {s t u : State} {xs : List Wide} (h : issue i s = .next t)
    (hs : issueAll is t = .next (u, xs)) : issueAll (i :: is) s = .next (u, t.response.getD 0 :: xs) := by
  rw [issueAll, h, andThen_next, hs, andThen_next]

/-- A sequence in two parts: the responses of the first, then those of the second. -/
theorem issueAll_append {is js : List Instr} {s t u : State} {xs ys : List Wide} (h : issueAll is s = .next (t, xs))
    (hs : issueAll js t = .next (u, ys)) : issueAll (is ++ js) s = .next (u, xs ++ ys) := by
  induction is generalizing s xs with
  | nil =>
    rw [issueAll_nil] at h
    cases h
    exact hs
  | cons i is ih =>
    unfold issueAll at h
    cases hi : issue i s with
    | next v =>
      rw [hi, andThen_next] at h
      cases hr : issueAll is v with
      | next r =>
        rw [hr, andThen_next] at h
        cases h
        exact issueAll_cons hi (ih hr)
      | fault r => rw [hr] at h; cases h
      | refused r => rw [hr] at h; cases h
    | fault r => rw [hi] at h; cases h
    | refused r => rw [hi] at h; cases h

/-- What a read-out after some commands answers, from what its two parts answer (R107). -/
theorem readOutAfter_eq {is : List Instr} {s t u : State} {xs ys : List Wide} (h : issueAll is s = .next (t, xs))
    (hs : issueAll (readOutCommands (lastValue xs)) t = .next (u, ys)) :
    readOutAfter is s = .next (u, answeredBytes ys) := by
  rw [readOutAfter, h, andThen_next, hs, andThen_next]

/-- One command alone. -/
theorem issueAll_single {i : Instr} {s t : State} (h : issue i s = .next t) :
    issueAll [i] s = .next (t, [t.response.getD 0]) := issueAll_cons h (issueAll_nil t)

/-- What the host and the block are after commands that give the transport nothing. -/
theorem issueFor_eq {is : List Instr} {s t : State} {xs : List Wide} (h : issueAll is s = .next (t, xs)) (a : HostAgent) :
    issueFor a is s = .next ⟨a, t, [], none⟩ := by
  rw [issueFor, h, andThen_next]

/-- A change of `pixelCount` is one `SETN` (R134). -/
theorem hostChange_pixelCount {n : Half} {s t : State} (h : issue (.setn n) s = .next t) (a : HostAgent) :
    hostChange (.pixelCount n) a s = .next ⟨{ a with pixelCount := n }, t, [], none⟩ :=
  issueFor_eq (issueAll_single h) _

/-- A change of `frameRate` is no command (R105). -/
theorem hostChange_frameRate (f : Half) (a : HostAgent) (s : State) :
    hostChange (.frameRate f) a s = .next ⟨{ a with frameRate := f }, s, [], none⟩ := rfl

end Sys2Proof.Machine
end

