-- ==== Sys2Proof/Laws/PerInstr.lean ====
section
/-! SUPPORT. Statements about every instruction as syntax, one lemma per constructor. -/

namespace Sys2Proof.Laws.EncodingFitsRow

/-- The encoding of an instruction has no bit above the bits the opcode table gives its row (R90, R99 to R101). -/
def Statement (i : Instr) : Prop := (Sys2Proof.encode i).toNat < 2 ^ i.nbits

/-- A 64-bit word fits 64 bits. -/
theorem command_fits (x : Wide) : x.toNat < 2 ^ 64 := x.isLt

/-- A word whose upper fields are zero fits 32 bits. -/
theorem record_fits (w : Word) : (pack 0 0 0 w).toNat < 2 ^ 32 := by
  have h : (pack 0 0 0 w).toNat = w.toNat := by
    simp only [pack, BitVec.toNat_append]
    simp
  rw [h]
  exact w.isLt

theorem setn (n : Half) : Statement (.setn n) := command_fits _
theorem setceil (ch : BitVec 2) (c : Half) : Statement (.setceil ch c) := command_fits _
theorem wpix (p : Half) (r g b : Byte) : Statement (.wpix p r g b) := command_fits _
theorem clrpix : Statement .clrpix := command_fits _
theorem ramp (l : Byte) (c : Half) : Statement (.ramp l c) := command_fits _
theorem lookup (l : Byte) (c : Half) : Statement (.lookup l c) := command_fits _
theorem encode : Statement .encode := command_fits _
theorem rdout (j : Word) : Statement (.rdout j) := command_fits _
theorem rdreg (num : Byte) : Statement (.rdreg num) := command_fits _
theorem wireStart : Statement .wireStart := by unfold Statement; decide
theorem wireLedB1 (b g r : Byte) : Statement (.wireLedB1 b g r) := record_fits _
theorem wireLedB2 (b g r : Byte) : Statement (.wireLedB2 b g r) := record_fits _
theorem wireLedB4 (b g r : Byte) : Statement (.wireLedB4 b g r) := record_fits _
theorem wireLedB31 (b g r : Byte) : Statement (.wireLedB31 b g r) := record_fits _
theorem wireEnd : Statement .wireEnd := by unfold Statement; decide

end Sys2Proof.Laws.EncodingFitsRow
end

