-- ==== Sys2Proof/Tests/Slice0.lean ====
section
/-! SUPPORT. Small tests with expected values from spec/ (95_test_vectors.md and the rules' own examples), and one
named witness for the hypotheses of each obligation that has some. -/

namespace Sys2Proof.Tests

open Sys2Proof Sys2Proof.Machine

/-! ## Small states -/

/-- The state after one step that takes the word `w`. -/
def after (s : State) (w : Wide) : State :=
  match step (presentNext s w) with
  | .next t => t
  | .fault _ => s
  | .refused _ => s

/-- Reset with `PIX_CAP` = 1000, as in V13. -/
def capped : State := { State.reset with cfg := ⟨1000, .formula .offSquared⟩ }

/-- One pixel (255, 128, 0), the example of R202. -/
def onePixel : State := { State.reset with npix := 1, pix := [(0, 0xFF), (1, 0x80)] }

/-- Two pixels (255, 128, 0) and (1, 2, 3), program P1. -/
def painted : State := { State.reset with npix := 2, pix := [(0, 0xFF), (1, 0x80), (3, 1), (4, 2), (5, 3)] }

/-- `painted` after an earlier access to key 7905. -/
def warm : State := { painted with cache := [⟨7905, rampTable Config.default 7905⟩] }

/-- The frame of R202 held: `00 00 00 00 FF 00 08 FF FF`. -/
def framed : State := { onePixel with out := [(4, 0xFF), (6, 0x08), (7, 0xFF), (8, 0xFF)], outlen := 9 }

/-- A state in which a command has faulted with cause 3. -/
def faulted : State := { painted with status := 1, cause := 3 }

/-- `s` with one word pending. -/
def pending (s : State) (w : Wide) : State := { s with port := [.command w] }

/-! ## Well-formedness -/

/-- R94(c): channel 3 is the one ill-formed operand value. -/
theorem test_wf_refuses_channel_3 : Instr.wf (.setceil 3 1000) = false := by decide

theorem test_wf_accepts_channel_2 : Instr.wf (.setceil 2 1000) = true := by decide

/-! ## Decoding: words written out from R90 to R93 and from the opcode table's patterns -/

/-- op = 00000001, a = 0, h = 144, w = 0. -/
theorem test_decode_setn :
    decodeTableWord 64 0b0000000100000000000000001001000000000000000000000000000000000000 = some (.setn 144) := by decide

/-- op = 00000010, a = 00000001 (G), h = 1000, w = 0. -/
theorem test_decode_setceil :
    decodeTableWord 64 0b0000001000000001000000111110100000000000000000000000000000000000 = some (.setceil 1 1000) := by
  decide

/-- op = 00000011, a = 0, h = 3, w = 00 FF 80 00. -/
theorem test_decode_wpix :
    decodeTableWord 64 0b0000001100000000000000000000001100000000111111111000000000000000 =
      some (.wpix 3 0xFF 0x80 0x00) := by decide

/-- op = 00000100, every other bit 0. -/
theorem test_decode_clrpix :
    decodeTableWord 64 0b0000010000000000000000000000000000000000000000000000000000000000 = some .clrpix := by decide

/-- op = 00010000, a = 128, h = 0, w = 0. -/
theorem test_decode_ramp :
    decodeTableWord 64 0b0001000010000000000000000000000000000000000000000000000000000000 = some (.ramp 128 0) := by
  decide

/-- op = 00010001, a = 255, h = 1000, w = 0. -/
theorem test_decode_lookup :
    decodeTableWord 64 0b0001000111111111000000111110100000000000000000000000000000000000 = some (.lookup 255 1000) := by
  decide

/-- op = 00100000, every other bit 0. -/
theorem test_decode_encode :
    decodeTableWord 64 0b0010000000000000000000000000000000000000000000000000000000000000 = some .encode := by decide

/-- op = 00100001, a = 0, h = 0, w = 4. -/
theorem test_decode_rdout :
    decodeTableWord 64 0b0010000100000000000000000000000000000000000000000000000000000100 = some (.rdout 4) := by decide

/-- op = 00110000, a = 14, h = 0, w = 0. -/
theorem test_decode_rdreg :
    decodeTableWord 64 0b0011000000001110000000000000000000000000000000000000000000000000 = some (.rdreg 14) := by decide

theorem test_decode_wire_start : decodeTableWord 32 0b00000000000000000000000000000000 = some .wireStart := by decide

/-- 11100001 bbbbbbbb gggggggg rrrrrrrr, with b = 1, g = 2, r = 3. -/
theorem test_decode_wire_b1 : decodeTableWord 32 0b11100001000000010000001000000011 = some (.wireLedB1 1 2 3) := by decide

theorem test_decode_wire_b2 : decodeTableWord 32 0b11100010000000010000001000000011 = some (.wireLedB2 1 2 3) := by decide

theorem test_decode_wire_b4 : decodeTableWord 32 0b11100100000000010000001000000011 = some (.wireLedB4 1 2 3) := by decide

theorem test_decode_wire_b31 : decodeTableWord 32 0b11111111000000010000001000000011 = some (.wireLedB31 1 2 3) := by decide

theorem test_decode_wire_end : decodeTableWord 8 0b11111111 = some .wireEnd := by decide

/-- R94(a): the all-zero and the all-ones word are illegal. -/
theorem test_decode_illegal : decode 0#64 = .error .illegalOpcode ∧ decode (BitVec.allOnes 64) = .error .illegalOpcode := by
  decide

/-- V12: one must-be-zero bit in each of `a`, `w` of SETN, and `a[2]` of SETCEIL. -/
theorem test_decode_reserved :
    decode 0x0101000500000000#64 = .error .reservedField ∧ decode 0x0100000500000001#64 = .error .reservedField ∧
      decode 0x0204006400000000#64 = .error .reservedField := by decide

/-- R103, U5: a brightness byte of no format is refused by the reader of the stream. -/
theorem test_reader_refuses_brightness_3 : readRecord 0xE3 1 2 3 = .error .badBrightness := by decide

/-! ## The commands, one step each -/

/-- V13: `SETN 1001` with `PIX_CAP` = 1000 faults CAPACITY. -/
theorem test_setn_over_capacity : (after capped 0x010003E900000000).response = some 0x8000000500000000 := by decide

/-- R220: `SETN` drops the held frame and blackens the pixels. -/
theorem test_setn_drops_frame : (after framed 0x0100000100000000).outlen = 0 ∧
    (after framed 0x0100000100000000).pixels = [⟨0, 0, 0⟩] := by decide

/-- R221: `SETCEIL G, 1000` writes the green register only. -/
theorem test_setceil_green : (after painted 0x020103E800000000).ceilG = 1000 ∧
    (after painted 0x020103E800000000).ceilR = 0 := by decide

/-- R94(c): channel 3 faults RESERVED_FIELD. -/
theorem test_setceil_reserved : (after painted 0x0203000500000000).response = some 0x8000000200000000 := by decide

/-- R222: `WPIX 1, 10, 20, 30` (P4's word). -/
theorem test_wpix_writes : (after painted 0x03000001000A141E).pixels = [⟨255, 128, 0⟩, ⟨10, 20, 30⟩] := by decide

/-- P4: `WPIX 2` with two pixels faults INDEX_RANGE. -/
theorem test_wpix_out_of_range : (after painted 0x0300000200010101).response = some 0x8000000300000000 := by decide

/-- R223. -/
theorem test_clrpix_blackens : (after painted 0x0400000000000000).pixels = [⟨0, 0, 0⟩, ⟨0, 0, 0⟩] := by decide

/-- R160's example: `RAMP 128, 0` responds 248. -/
theorem test_ramp_example : (after painted 0x1080000000000000).response = some 0x00000000000000F8 := by decide

/-- V8: `RAMP 128, 100` acts as ceiling 255 and responds 34. -/
theorem test_ramp_low_ceiling : (after painted 0x1080006400000000).response = some 0x0000000000000022 := by decide

/-- R176's example: `LOOKUP 128, 0` after reset misses, responds 248 and leaves key 7905. -/
theorem test_lookup_miss : (after painted 0x1180000000000000).response = some 0x00000000000000F8 ∧
    cacheKeys (after painted 0x1180000000000000).cache = [7905] := by decide

/-- R176's example: the same word again hits. -/
theorem test_lookup_hit : (after warm 0x1180000000000000).response = some 0x00000100000000F8 := by decide

set_option maxRecDepth 100000 in
/-- R202's example: nine bytes, red misses, green and blue hit. -/
theorem test_encode_example : (after onePixel 0x2000000000000000).response = some 0x0000060000000009 ∧
    (List.range 9).map (memRead (after onePixel 0x2000000000000000).out) =
      [0x00, 0x00, 0x00, 0x00, 0xFF, 0x00, 0x08, 0xFF, 0xFF] := by decide

set_option maxRecDepth 100000 in
/-- R203: no pixels, five bytes. -/
theorem test_encode_no_pixels : (after State.reset 0x2000000000000000).outlen = 5 ∧
    (List.range 5).map (memRead (after State.reset 0x2000000000000000).out) = [0x00, 0x00, 0x00, 0x00, 0xFF] := by decide

/-- R206's example: `RDOUT 4` responds FF. -/
theorem test_rdout_example : (after framed 0x2100000000000004).response = some 0x00000000000000FF := by decide

/-- R206's example: `RDOUT 9` faults INDEX_RANGE. -/
theorem test_rdout_out_of_range : (after framed 0x2100000000000009).response = some 0x8000000300000000 := by decide

/-- V14: `RDREG 8` shows the most recent key with bit 31 set. -/
theorem test_rdreg_ckey0 : (after warm 0x3008000000000000).response = some 0x0000000080001EE1 := by decide

/-- V13: `RDREG 15` faults BAD_REGISTER. -/
theorem test_rdreg_bad : (after painted 0x300F000000000000).response = some 0x8000000400000000 := by decide

/-- R94(a): the bits of a wire record at the port are an illegal word. -/
theorem test_wire_record_refused : (match step (State.reset.withFetchWord 32 0xE1010203) with
    | .next t => t.response
    | _ => none) = some 0x8000000100000000 := by decide

/-- R254: the second fault keeps the first cause in CAUSE. -/
theorem test_first_cause_kept : (after faulted 0x3063000000000000).cause = 3 ∧
    (after faulted 0x3063000000000000).response = some 0x8000000400000000 := by decide

/-- R280: reset clears the fault registers and the pixels. -/
theorem test_reset_clears : (match step { faulted with port := [.reset] } with
    | .next t => t
    | _ => faulted) = State.reset := by decide

/-! ## Wire records (V9 and R199's examples) -/

theorem test_record_b1 : wireBytes (record 1 2 3) = [0xE1, 0x03, 0x02, 0x01] := by decide

/-- The source's example (300, 300, 300), and 301 truncated (R197). -/
theorem test_record_b2 : wireBytes (record 300 300 300) = [0xE2, 0x96, 0x96, 0x96] ∧
    wireBytes (record 301 0 0) = [0xE2, 0x00, 0x00, 0x96] := by decide

/-- 1022 reaches the clip. -/
theorem test_record_b4 : wireBytes (record 512 3 2) = [0xE4, 0x01, 0x01, 0x80] ∧
    wireBytes (record 1022 0 0) = [0xE4, 0x00, 0x00, 0xFF] := by decide

theorem test_record_b31 : wireBytes (record 1024 15 16) = [0xFF, 0x01, 0x00, 0x21] ∧
    wireBytes (record 7905 248 0) = [0xFF, 0x00, 0x08, 0xFF] := by decide

/-- R191: 590 bytes for 144 lights, 266240 for 65535. -/
theorem test_frame_len : frameLen 144 = 590 ∧ frameLen 15 = 65 ∧ frameLen 16 = 70 ∧ frameLen 65535 = 266240 := by decide

/-- V3: entries of the ramp at the edges of its regions, for key 7905. -/
theorem test_ramp_edges : ramp Config.default 79 0 = 79 ∧ ramp Config.default 80 0 = 79 ∧
    ramp Config.default 255 0 = 7905 ∧ ramp Config.default 254 9000 = 7772 := by decide

/-! ## The host -/

/-- S6: TiledRepeat of 5 into 12. -/
theorem test_tile_5_into_12 :
    tileInto [⟨1, 0, 0⟩, ⟨2, 0, 0⟩, ⟨3, 0, 0⟩, ⟨4, 0, 0⟩, ⟨5, 0, 0⟩] (clearBuffer 12) =
      [⟨1, 0, 0⟩, ⟨2, 0, 0⟩, ⟨3, 0, 0⟩, ⟨4, 0, 0⟩, ⟨5, 0, 0⟩, ⟨1, 0, 0⟩, ⟨2, 0, 0⟩, ⟨3, 0, 0⟩, ⟨4, 0, 0⟩, ⟨5, 0, 0⟩,
        ⟨1, 0, 0⟩, ⟨2, 0, 0⟩] := by decide

/-- R127, R128: the worked examples of Rotate and Cycle. -/
theorem test_rotate_and_cycle : rotateOffset 125 60 10 = 2 ∧ rotateOffset 125 0 10 = 0 ∧ cycleIndex 2500 1000 3 = 2 := by
  decide

/-- R129: Rotate writes its child's text between braces. -/
theorem test_rotate_text : (descriptionText (.rotate (.rotate .emptyCycle))).toList.map Char.toNat =
    [82, 111, 116, 97, 116, 101, 123, 82, 111, 116, 97, 116, 101, 123, 67, 121, 99, 108, 101, 123, 125, 125, 125] := by
  decide

/-! ## Witnesses: the hypotheses of every obligation that has some can be met -/

theorem warm_cacheOk : CacheOk warm.cfg warm.cache where
  atMostSix := by decide
  distinctKeys := by decide
  keyRange := by
    intro e he
    obtain rfl : e = ⟨7905, rampTable Config.default 7905⟩ := by simpa [warm] using he
    decide
  tableOfKey := by
    intro e he
    obtain rfl : e = ⟨7905, rampTable Config.default 7905⟩ := by simpa [warm] using he
    rfl

theorem cold_cacheOk : CacheOk painted.cfg painted.cache := ⟨by decide, by decide, by simp [painted, State.reset],
  by simp [painted, State.reset]⟩

/-- A state with a warm cache, two pixels and no fault meets the invariant. -/
theorem witness_inv_warm : Inv warm where
  cache := warm_cacheOk
  pixels := ⟨by decide, by decide, by decide⟩
  frame := ⟨by decide, by decide, by decide⟩
  faultRegs := ⟨by decide, by decide⟩

theorem witness_inv_reset : Inv State.reset where
  cache := ⟨by decide, by decide, by simp [State.reset], by simp [State.reset]⟩
  pixels := ⟨by decide, by decide, by decide⟩
  frame := ⟨by decide, by decide, by decide⟩
  faultRegs := ⟨by decide, by decide⟩

theorem witness_DecodeOfEncodeIsTheInstruction :
    Instr.wf (.setceil 2 0xFFFF) = true ∧ Instr.isCommand (.setceil 2 0xFFFF) = true ∧ Instr.wf .wireEnd = true := by
  decide

theorem witness_DecodedWordIsTheEncodingOfItsCommand : decode 0x21000000FFFFFFFF#64 = .ok (.rdout 0xFFFFFFFF) := by decide

theorem witness_StepRunsTheDecodedInstruction :
    ((pending warm 0x2000000000000000).port = .command 0x2000000000000000 :: [] ∧
      decode 0x2000000000000000#64 = .ok .encode) ∧
    ((pending warm 0).port = .command 0 :: [] ∧ decode 0#64 = .error .illegalOpcode) ∧
    ({ warm with port := [.reset] } : State).port = .reset :: [] ∧ warm.port = [] := by decide

theorem witness_WordIsDecodedInOrder :
    (¬ Assigned 0x05FFFFFFFFFFFFFF#64) ∧ (Assigned 0x0101000000000000#64 ∧ Reserved 0x0101000000000000#64) ∧
    (Assigned 0x0203000000000000#64 ∧ Reserved 0x0203000000000000#64) ∧
    (Assigned 0x0202000000000000#64 ∧ ¬ Reserved 0x0202000000000000#64) ∧
    (pending warm 0x0202000000000000).port = .command 0x0202000000000000 :: [] := by
  unfold Assigned Reserved
  decide

theorem witness_EveryCommandIsAnsweredInTheResponseFormat :
    (pending warm 0).port = .command 0 :: [] := by decide

theorem witness_RefusedCommandChangesOnlyStatusAndCause : ∃ t x, (pending faulted 0).port = .command 0 :: [] ∧
    step (pending faulted 0) = .next t ∧ t.response = some x ∧ errBit x = true :=
  ⟨raiseFault faulted .illegalOpcode, faultWord .illegalOpcode, rfl, rfl, rfl, by decide⟩

theorem witness_StatusAndCauseStayUntilReset :
    (NoReset (pending faulted 0) ∧ step (pending faulted 0) = .next (raiseFault faulted .illegalOpcode) ∧
      (pending faulted 0).err = true ∧ (pending faulted 0).cause ≠ 0) ∧
    (NoReset (pending painted 0) ∧ step (pending painted 0) = .next (raiseFault painted .illegalOpcode) ∧
      (pending painted 0).err = false ∧ (raiseFault painted .illegalOpcode).err = true) := by
  refine ⟨⟨?_, rfl, by decide, by decide⟩, ?_, rfl, by decide, by decide⟩ <;> intro rest h <;> cases h

/-- `n = PIX_CAP` and `n = PIX_CAP + 1`. -/
theorem witness_SetnMakesABlackStoreOrFaults : (1000 : Half) ≤ capped.cfg.pixCap ∧ capped.cfg.pixCap < (1001 : Half) := by
  decide

/-- `i = NPIX - 1` and `i = NPIX`. -/
theorem witness_WpixWritesOnePixelOrFaults :
    ((1 : Half) < painted.npix ∧ painted.pix.wf = true) ∧ painted.npix ≤ (2 : Half) := by decide

/-- Ceilings at the boundaries: 0, 1, 254, 0x1EE2. -/
theorem witness_RampAnswersTheCurveAndWritesNothing :
    ((0 : Half) = 0 ∨ 0x1EE1 < (0 : Half)) ∧ ((0x1EE2 : Half) = 0 ∨ 0x1EE1 < (0x1EE2 : Half)) ∧
    ((1 : Half) ≠ 0 ∧ (1 : Half) < 255) ∧ (254 : Half) ≠ 0 ∧ (254 : Half) < 255 := by decide

/-- A cache that hits and a cache that misses. -/
theorem witness_LookupAnswersTheRampHitOrMiss : CacheOk warm.cfg warm.cache ∧ CacheOk painted.cfg painted.cache :=
  ⟨warm_cacheOk, cold_cacheOk⟩

theorem witness_EncodeWritesTheFrame : CacheOk warm.cfg warm.cache := warm_cacheOk

/-- `j = OUTLEN - 1` and `j = OUTLEN`. -/
theorem witness_RdoutAnswersOneByteOrFaults :
    (8 : Word).toNat < framed.outlen.toNat ∧ framed.outlen.toNat ≤ (9 : Word).toNat := by decide

/-- `num` = 14 and 15. -/
theorem witness_RdregAnswersTheRegisterOrFaults :
    warm.cache.length ≤ 6 ∧ (14 : Byte).toNat ≤ 14 ∧ 14 < (15 : Byte).toNat := by decide

theorem witness_WireFormatsAreRefusedAsCommands :
    Instr.isCommand .wireStart = false ∧ Instr.isCommand (.wireLedB31 255 255 255) = false ∧
      Instr.isCommand .wireEnd = false := by decide

/-- `exec` answers the instruction with a next state whose response has `ERR` = 0. -/
def AnsweredOk (i : Instr) (s : State) : Prop :=
  ∃ t x, exec i s = .next t ∧ t.response = some x ∧ errBit x = false

/-- Every arm of the column: each command is answered normally from a state with two pixels, `WPIX` at index 1, the
last, and `SETCEIL` on each channel. -/
theorem witness_CommandsWriteOnlyTheirColumn :
    AnsweredOk (.setn 2) framed ∧ AnsweredOk (.setceil 0 1000) framed ∧ AnsweredOk (.setceil 1 1000) framed ∧
    AnsweredOk (.setceil 2 1000) framed ∧ AnsweredOk (.wpix 1 1 2 3) painted ∧ AnsweredOk .clrpix framed ∧
    AnsweredOk (.ramp 128 0) framed ∧ AnsweredOk (.lookup 128 0) framed ∧ AnsweredOk .encode framed ∧
    AnsweredOk (.rdout 8) framed ∧ AnsweredOk (.rdreg 14) framed :=
  ⟨⟨_, _, rfl, rfl, by decide⟩, ⟨_, _, rfl, rfl, by decide⟩, ⟨_, _, rfl, rfl, by decide⟩, ⟨_, _, rfl, rfl, by decide⟩,
    ⟨_, _, rfl, rfl, by decide⟩, ⟨_, _, rfl, rfl, by decide⟩, ⟨_, _, rfl, rfl, by decide⟩, ⟨_, _, rfl, rfl, by decide⟩,
    ⟨_, _, rfl, rfl, by decide⟩, ⟨_, _, rfl, rfl, by decide⟩, ⟨_, _, rfl, rfl, by decide⟩⟩

theorem witness_OnlyLookupAndEncodeUseTheCache : ∃ t, step (pending warm 0x10FF000000000000) = .next t ∧
    (∀ l c, decode 0x10FF000000000000#64 ≠ .ok (.lookup l c)) ∧ decode 0x10FF000000000000#64 ≠ .ok .encode := by
  have h : decode 0x10FF000000000000#64 = .ok (.ramp 255 0) := by decide
  refine ⟨_, rfl, ?_, ?_⟩ <;> simp [h]

theorem witness_NormalizeClampsTheCeiling :
    (0x1EE1 : Half) < 0x1EE2 ∧ ((254 : Half) ≠ 0 ∧ (254 : Half) < 255) ∧ ((255 : Half) ≤ 255 ∧ (255 : Half) ≤ 0x1EE1) ∧
      (255 : Half) ≤ 0x1EE1 ∧ (0x1EE1 : Half) ≤ 0x1EE1 := by decide

/-- Key 7905: levels 1 and 78 are linear, 79 is not. -/
theorem witness_RampIsBlackThenLinear :
    (1 ≤ (78 : Byte).toNat ∧ (78 : Byte).toNat < ((normalizeCeil 0).toNat + 50) / 100) ∧
      ¬ (79 : Byte).toNat < ((normalizeCeil 0).toNat + 50) / 100 := by decide

theorem witness_RampFollowsTheCubicFormula : Config.default.rampBody = .formula .offSquared ∧
    ((normalizeCeil 0).toNat + 50) / 100 ≤ (79 : Byte).toNat ∧ ((normalizeCeil 1).toNat + 50) / 100 ≤ (3 : Byte).toNat := by
  decide

theorem witness_RampSatisfiesItsLaws : Config.default.rampBody = .formula .offSquared ∧
    (⟨0, .formula .halfUp⟩ : Config).rampBody = .formula .halfUp := by decide

theorem witness_ThirtyTwoBitsSufficeForTheRamp : 255 ≤ (7905 : Word).toNat ∧ (7905 : Word).toNat ≤ 7905 ∧
    ((7905 : Word).toNat + 50) / 100 ≤ (255 : Word).toNat ∧ (255 : Word).toNat ≤ 255 := by decide

theorem witness_SeventhKeyEvictsTheFirst :
    ([1000, 1100, 1200, 1300, 1400, 1500, 1600].map normalizeCeil).Nodup := by decide

theorem witness_ThreeTablesCoexist : warm.cache.length ≤ 6 := by decide

theorem witness_CacheShrinksOnlyByReset : NoReset (pending warm 0) ∧
    step (pending warm 0) = .next (raiseFault warm .illegalOpcode) :=
  ⟨fun _ h => (nomatch h), rfl⟩

theorem witness_FramePlacesItsParts : [Color.black, ⟨1, 2, 3⟩][1]? = some ⟨1, 2, 3⟩ ∧
    4 + 4 * [Color.black, ⟨1, 2, 3⟩].length ≤ 12 ∧ 12 < frameLen [Color.black, ⟨1, 2, 3⟩].length := by decide

theorem witness_ColourByteIsMonotone : (254 : Half) ≤ 255 ∧ (Brightness.br1 = .br1 → (255 : Half) ≤ 255) ∧
    (Brightness.br2 = .br2 → (511 : Half) ≤ 511) ∧ (Brightness.br1 = .br2 → (255 : Half) ≤ 511) := by decide

theorem witness_ReaderAcceptsOnlyFrames : readFrame 1 [0x00, 0x00, 0x00, 0x00, 0xE1, 0x01, 0x02, 0x03, 0xFF] =
    .ok [.wireStart, .wireLedB1 1 2 3, .wireEnd] := by decide

/-- A warm and a cold cache, raw ceilings 0 and 0x1EE1, one fault: everything that may differ does. -/
theorem witness_FrameDependsOnPixelsAndCeilingsOnly :
    CacheOk warm.cfg warm.cache ∧ CacheOk faulted.cfg faulted.cache ∧ faulted.cfg.rampBody = warm.cfg.rampBody ∧
    faulted.npix = warm.npix ∧ (∀ i, i < warm.npix.toNat → pixelAt faulted.pix i = pixelAt warm.pix i) ∧
    normalizeCeil faulted.ceilR = normalizeCeil warm.ceilR ∧ normalizeCeil faulted.ceilG = normalizeCeil warm.ceilG ∧
    normalizeCeil faulted.ceilB = normalizeCeil warm.ceilB ∧ (∃ t, exec .encode warm = .next t) ∧
    ∃ t, exec .encode faulted = .next t :=
  ⟨warm_cacheOk, cold_cacheOk, rfl, rfl, fun _ _ => rfl, rfl, rfl, rfl, ⟨_, rfl⟩, ⟨_, rfl⟩⟩

/-- Byte 12, the last of 13, exists; byte 13 does not. -/
theorem witness_ReadOutAfterEncodeGivesTheFrame : CacheOk warm.cfg warm.cache ∧ (∃ t, exec .encode warm = .next t) ∧
    (frameOf warm)[(12 : Word).toNat]? = some 0xFF ∧ frameLen warm.npix.toNat ≤ (13 : Word).toNat :=
  ⟨warm_cacheOk, ⟨_, rfl⟩, by decide, by decide⟩

theorem witness_ZeroPixelsGiveTheFiveByteFrame : State.reset.npix = 0 := by decide

theorem witness_ResetLeavesTheResetState : ({ faulted with port := [.reset] } : State).port = .reset :: [] ∧
    (13 : Byte).toNat ≤ 13 := by decide

theorem witness_StepKeepsTheInvariant : Inv warm ∧ ∃ t, step warm = .next t := ⟨witness_inv_warm, ⟨_, rfl⟩⟩

theorem witness_RenderKeepsTheLength : render (.solid ⟨1, 2, 3⟩) 0 (clearBuffer 2) =
    .ok ([⟨1, 2, 3⟩, ⟨1, 2, 3⟩], .solid ⟨1, 2, 3⟩) := by decide

/-- The wavelengths on both sides of the range, and the last position of a buffer. -/
theorem witness_SpectrumColoursEveryPosition : (379 : Half).toNat < 380 ∧ 781 ≤ (781 : Half).toNat ∧
    9 < (clearBuffer 10).length := by decide

/-- An empty Cycle, and R128's example of three children. -/
theorem witness_CycleDelegatesToOneChild : childCount .nil = 0 ∧
    childCount (.cons .spectrum (.cons (.solid Color.black) (.cons (.tiledRepeat []) .nil))) = 3 ∧ 1000 ≠ 0 := by decide

/-- The buffer of length 10 of R127's example, with index 9 wrapping to 1. -/
theorem witness_RotatePlacesTheChildsPixels :
    (∃ scratch d, render (.solid ⟨1, 2, 3⟩) 125 (clearBuffer (clearBuffer 10).length) = .ok (scratch, d)) ∧
      9 < (clearBuffer 10).length :=
  ⟨⟨_, _, rfl⟩, by decide⟩

theorem witness_TiledRepeatTilesTheBuffer : 11 < (clearBuffer 12).length ∧ [Color.black] ≠ [] := by decide

theorem witness_SetmaxSetsTheThreeCeilings :
    ({ warm with port := commandEvents (setmaxCommands 1000) } : State).port =
      commandEvents (setmaxCommands 1000) ++ [] := by decide

/-- Two pixels, one of them black and so skipped. -/
theorem witness_TickEncodesTheRenderedBuffer :
    Inv { warm with port := commandEvents (paintCommands [⟨9, 8, 7⟩, Color.black]) } ∧
    warm.npix.toNat = [(⟨9, 8, 7⟩ : Color), Color.black].length ∧
    ({ warm with port := commandEvents (paintCommands [⟨9, 8, 7⟩, Color.black]) } : State).port =
      commandEvents (paintCommands [⟨9, 8, 7⟩, Color.black]) ++ [] :=
  ⟨⟨witness_inv_warm.cache, ⟨by decide, by decide, by decide⟩, ⟨by decide, by decide, by decide⟩,
    ⟨by decide, by decide⟩⟩, by decide, by decide⟩

/-! ## The host's exchanges -/

/-- R105's row for `encode`, for two pixels: the three ceilings, every pixel, `ENCODE`. -/
theorem test_encode_call_commands : encodeCallCommands [⟨9, 8, 7⟩, Color.black] 1 2 3 =
    [.setceil 0 1, .setceil 1 2, .setceil 2 3, .wpix 0 9 8 7, .wpix 1 0 0 0, .encode] := by decide

/-- R107's `RDFRAME` on the frame of R202's example: the nine bytes that `RDREG 4` counts. -/
theorem test_rdframe_example : issueRdframe framed =
    .next ({ framed with response := some 0xFF }, [0, 0, 0, 0, 0xFF, 0, 8, 0xFF, 0xFF]) := by rfl

/-- R107's `RDFRAME` with no frame held: `RDREG 4` gives 0 and no `RDOUT` follows. -/
theorem test_rdframe_no_frame : issueRdframe painted = .next ({ painted with response := some 0 }, []) := by rfl

/-- A host with two pixels and the hardware default ceiling. -/
def someHost : HostAgent := ⟨2, 0, 50, .spectrum, none⟩

/-- The block after something the host did. -/
def blockAfter (o : Host.Outcome HostResult Fault Refusal) : Option State :=
  match o with
  | .next r => some r.block
  | _ => none

/-- R134: a change of `maxOutputIntensity` keeps the pixels and the held frame (R221, R288). -/
theorem test_intensity_change_keeps_the_frame :
    (blockAfter (hostChange (.maxOutputIntensity 1000) someHost framed)).map (fun t => (t.ceilB, t.outlen, t.pixels)) =
      some (1000, 9, [⟨0xFF, 0x80, 0⟩]) := by rfl

/-- R134: a change of `pixelCount` drops them and keeps the ceilings (R220). -/
theorem test_count_change_keeps_the_ceilings :
    (blockAfter (hostChange (.pixelCount 2) someHost { framed with ceilG := 300 })).map
      (fun t => (t.ceilG, t.outlen, t.pixels)) = some (300, 0, [Color.black, Color.black]) := by rfl

theorem witness_EncodeCallReturnsTheFrame :
    Inv warm ∧ warm.npix.toNat = [(⟨9, 8, 7⟩ : Color), Color.black].length := ⟨witness_inv_warm, by decide⟩

theorem witness_TickReturnsTheFrame :
    Inv warm ∧ warm.npix.toNat = [(⟨9, 8, 7⟩ : Color), Color.black].length := ⟨witness_inv_warm, by decide⟩

/-! ## The ramp's parts -/

/-- R158(a) at both ends of the keys: `cut`, `inR`, `outR`, `off`. -/
theorem test_ramp_parts_at_both_ends :
    (linearCut 255, inRange 255, outRange 255, cubeOffset 255) = (3, 252, 252, 126) ∧
    (linearCut 7905, inRange 7905, outRange 7905, cubeOffset 7905) = (79, 176, 7826, 88) := by decide

/-- Both ends of the keys, level 255. -/
theorem witness_RampPartsStayInTheirRanges : 255 ≤ 255 ∧ 255 ≤ 7905 ∧ 7905 ≤ 7905 ∧ (255 : Nat) ≤ 255 := by decide

/-! ## The ramp as a field: a law-abiding ramp that is no formula of D10 -/

/-- Every level below 255 gives itself, level 255 the key. -/
def stepRamp (l : Byte) (c : Half) : Half := if l = 255 then normalizeCeil c else l.setWidth 16

theorem stepRamp_toNat (l : Byte) (c : Half) :
    (stepRamp l c).toNat = if l.toNat = 255 then (normalizeCeil c).toNat else l.toNat := by
  have hl : l.toNat < 256 := l.isLt
  have he : l = 255 ↔ l.toNat = 255 := BitVec.toNat_inj.symm
  unfold stepRamp
  by_cases h : l.toNat = 255
  · rw [if_pos (he.mpr h), if_pos h]
  · rw [if_neg (fun h' => h (he.mp h')), if_neg h, BitVec.toNat_setWidth, Nat.mod_eq_of_lt (by omega)]

theorem normalizeCeil_idem (c : Half) : normalizeCeil (normalizeCeil c) = normalizeCeil c :=
  normalize_of_key (normalize_range c).1 (normalize_range c).2

theorem witness_EveryLawfulRampIsExpressible : RampLaws stepRamp where
  black c := rfl
  monotone c l l' h := by
    have hle : l.toNat ≤ l'.toNat := h
    have := l'.isLt
    have := normalize_range c
    rw [BitVec.le_def, stepRamp_toNat, stepRamp_toNat]
    split <;> split <;> omega
  bounded l c := by
    have := l.isLt
    have := normalize_range c
    rw [BitVec.le_def, stepRamp_toNat]
    split <;> omega
  zeroCeiling l := rfl
  normalized l c := by
    unfold stepRamp
    rw [normalizeCeil_idem]
  top c := rfl
  linear l c h1 h2 := by
    have := linearCut_range (normalize_range c).1 (normalize_range c).2
    rw [stepRamp_toNat, if_neg (by omega)]
  onlyZeroBlack l c h := by
    have := normalize_range c
    rw [stepRamp_toNat]
    split <;> omega
  hardwareMax l c := by
    have := l.isLt
    have := normalize_range c
    rw [BitVec.le_def, stepRamp_toNat]
    show _ ≤ 7905
    split <;> omega

/-- The configuration with that ramp. -/
theorem ramp_stepRamp : ramp ⟨65535, tabulate stepRamp⟩ = stepRamp := by
  funext l c
  obtain ⟨h1, h2⟩ := normalize_range c
  have hc := linearCut_range h1 h2
  apply BitVec.eq_of_toNat_eq
  rw [ramp_toNat]
  by_cases h0 : l.toNat = 0
  · rw [h0, rampNat_zero, stepRamp_toNat, if_neg (by omega), h0]
  · by_cases h : l.toNat < linearCut (normalizeCeil c).toNat
    · rw [rampNat_linear h0 h, stepRamp_toNat, if_neg (by omega)]
    · rw [rampNat_cubic h0 h, tabulatedRamp_tabulate _ _ h1 h2, stepRamp_toNat, stepRamp_toNat, normalizeCeil_idem]

theorem witness_KeysOf255GiveBrightnessOne : RampLaws (ramp ⟨65535, tabulate stepRamp⟩) := by
  rw [ramp_stepRamp]
  exact witness_EveryLawfulRampIsExpressible

end Sys2Proof.Tests
end

section
/-! PROOFS. What every step keeps (O10, O31, O43 to O45): the one inversion of a step that answers, then what each of its
cases does to the cache, the stores and the fault registers. -/

namespace Sys2Proof.Machine

/-! ## What a step can leave -/

/-- From `s` to `u`: what an accepted command writes, before its response. Each case is what R227 says
a command writes, with the guard under which it is accepted; `exec_cases` ties it to the meanings. -/
inductive CommandEffect (s : State) : State → Prop where
  /-- `RAMP`, `RDOUT`, `RDREG` write nothing (R160, R206, R226) -/
  | nothing : CommandEffect s s
  /-- `SETN` with a count that fits (R220) -/
  | count {n : Half} (fits : n.toNat ≤ s.cfg.pixCap.toNat) : CommandEffect s (setPixelCount s n)
  /-- `SETCEIL`, whichever ceiling it writes (R221) -/
  | ceilings (r g b : Half) : CommandEffect s { s with ceilR := r, ceilG := g, ceilB := b }
  /-- `WPIX` to a pixel that exists (R222) -/
  | pixel {i : Nat} (c : Color) (present : i < s.npix.toNat) : CommandEffect s (setPixel s i c)
  /-- `CLRPIX` (R223) -/
  | clear : CommandEffect s (clearPixels s)
  /-- `LOOKUP`: one cache access (R176) -/
  | access (c : Half) : CommandEffect s (setCache s (cacheAccess s.cfg s.cache c).cache)
  /-- `ENCODE`: three cache accesses and a frame of the pixels; which tables it is made with is not said here (R202) -/
  | frame (tR tG tB : RampTable) :
    CommandEffect s (setFrame (setCache s (accessAll s.cfg s.cache [s.ceilR, s.ceilG, s.ceilB]))
      (encodeFrame s.pixels tR tG tB) (frameLen s.npix.toNat))

/-- An instruction faults, or it is accepted and responds OK (R254, R96). -/
theorem exec_cases (i : Instr) (s : State) :
    (∃ c, exec i s = .next (raiseFault s c)) ∨
    (∃ u v f, CommandEffect s u ∧ exec i s = .next (respondOk u v f)) := by
  cases i with
  | setn n =>
    rcases execSetn_cases n s with ⟨fits, h⟩ | ⟨_, h⟩
    · exact .inr ⟨_, _, _, .count fits, h⟩
    · exact .inl ⟨_, h⟩
  | setceil ch c =>
    rcases execSetceil_cases ch c s with ⟨_, h⟩ | ⟨_, h⟩ | ⟨_, h⟩ | ⟨_, h⟩
    · exact .inr ⟨_, _, _, .ceilings c s.ceilG s.ceilB, h⟩
    · exact .inr ⟨_, _, _, .ceilings s.ceilR c s.ceilB, h⟩
    · exact .inr ⟨_, _, _, .ceilings s.ceilR s.ceilG c, h⟩
    · exact .inl ⟨_, h⟩
  | wpix i r g b =>
    rcases execWpix_cases i r g b s with ⟨hi, h⟩ | ⟨_, h⟩
    · exact .inr ⟨_, _, _, .pixel ⟨r, g, b⟩ hi, h⟩
    · exact .inl ⟨_, h⟩
  | clrpix => exact .inr ⟨_, _, _, .clear, rfl⟩
  | ramp l c => exact .inr ⟨_, _, _, .nothing, rfl⟩
  | lookup l c => exact .inr ⟨_, _, _, .access c, rfl⟩
  | encode => exact .inr ⟨_, _, _, .frame _ _ _, rfl⟩
  | rdout j =>
    rcases execRdout_cases j s with ⟨_, h⟩ | ⟨_, h⟩
    · exact .inr ⟨_, _, _, .nothing, h⟩
    · exact .inl ⟨_, h⟩
  | rdreg num =>
    rcases execRdreg_cases num s with ⟨_, _, _, h⟩ | ⟨_, h⟩
    · exact .inr ⟨_, _, _, .nothing, h⟩
    · exact .inl ⟨_, h⟩
  | wireStart | wireLedB1 _ _ _ | wireLedB2 _ _ _ | wireLedB4 _ _ _ | wireLedB31 _ _ _ | wireEnd => exact .inl ⟨_, rfl⟩

/-- The inversion of a step by the state it leaves: the block waited, was reset, refused a word, or accepted a command. -/
theorem step_next_cases {s t : State} (h : step s = .next t) :
    t = s ∨
    (∃ rest, s.port = .reset :: rest ∧ t = resetInput { s with port := rest }) ∨
    (∃ rest c, t = raiseFault { s with port := rest } c) ∨
    (∃ rest u v f, CommandEffect { s with port := rest } u ∧ t = respondOk u v f) := by
  rcases step_cases s with ⟨_, hs⟩ | ⟨rest, hp, hs⟩ | ⟨_, rest, c, _, _, hs⟩ | ⟨_, rest, i, _, _, hs⟩
  · exact .inl (Host.Outcome.next.inj (h.symm.trans hs))
  · exact .inr (.inl ⟨rest, hp, Host.Outcome.next.inj (h.symm.trans hs)⟩)
  · exact .inr (.inr (.inl ⟨rest, c, Host.Outcome.next.inj (h.symm.trans hs)⟩))
  · rcases exec_cases i { s with port := rest } with ⟨c, he⟩ | ⟨u, v, f, hu, he⟩
    · exact .inr (.inr (.inl ⟨rest, c, Host.Outcome.next.inj (h.symm.trans (hs.trans he))⟩))
    · exact .inr (.inr (.inr ⟨rest, u, v, f, hu, Host.Outcome.next.inj (h.symm.trans (hs.trans he))⟩))

/-! ## The fault registers -/

theorem causeCode_ne_zero (c : Cause) : causeCode c ≠ 0 := by cases c <;> decide

theorem causeCode_le_five (c : Cause) : (causeCode c).toNat ≤ 5 := by cases c <;> decide

@[simp] theorem errBit_faultWord (c : Cause) : errBit (faultWord c) = true := by cases c <;> decide

@[simp] theorem raiseFault_err (s : State) (c : Cause) : (raiseFault s c).err = true := rfl

/-- An accepted command leaves `STATUS` and `CAUSE` (R28, R29). -/
theorem CommandEffect.faultRegs {s u : State} (h : CommandEffect s u) : u.status = s.status ∧ u.cause = s.cause := by
  cases h <;> exact ⟨rfl, rfl⟩

theorem FaultRegsOk.congr {s t : State} (h : FaultRegsOk s) (hst : t.status = s.status) (hca : t.cause = s.cause) :
    FaultRegsOk t where
  causeIffErr := by simpa only [State.err, hst, hca] using h.causeIffErr
  knownCause := by simpa only [hca] using h.knownCause

/-- The first cause sets `CAUSE`, a later one leaves it (R254). -/
theorem faultRegsOk_raiseFault {s : State} (h : FaultRegsOk s) (c : Cause) : FaultRegsOk (raiseFault s c) := by
  by_cases hc : s.cause = 0
  · have hcause : (raiseFault s c).cause = causeCode c := if_pos hc
    exact ⟨⟨fun _ => rfl, fun _ => hcause ▸ causeCode_ne_zero c⟩, hcause ▸ causeCode_le_five c⟩
  · have hcause : (raiseFault s c).cause = s.cause := if_neg hc
    exact ⟨⟨fun _ => rfl, fun _ => hcause ▸ hc⟩, hcause ▸ h.knownCause⟩

/-- Settles O10: a step that takes no reset waits, adds a fault, or leaves both registers. -/
theorem statusAndCauseStayUntilReset : Obligations.StatusAndCauseStayUntilReset := by
  unfold Obligations.StatusAndCauseStayUntilReset
  intro s t hno h
  rcases step_next_cases h with rfl | ⟨rest, hp, _⟩ | ⟨rest, c, rfl⟩ | ⟨rest, u, v, f, hu, rfl⟩
  · exact ⟨id, fun _ => rfl, fun h0 h1 => absurd (h0.symm.trans h1) Bool.false_ne_true⟩
  · exact absurd hp (hno rest)
  · exact ⟨fun _ => rfl, fun hc => if_neg hc, fun _ _ => ⟨faultWord c, rfl, errBit_faultWord c⟩⟩
  · obtain ⟨hst, hca⟩ := hu.faultRegs
    have herr : (respondOk u v f).err = s.err := congrArg (· == 1#1) hst
    exact ⟨herr.trans, fun _ => hca, fun h0 h1 => absurd (h0.symm.trans (herr.symm.trans h1)) Bool.false_ne_true⟩

/-! ## The cache -/

/-- An access never shortens a cache: a hit moves an entry, a miss adds one or replaces the last (R173, R174). -/
theorem length_le_cacheAccess (cfg : Config) (cache : List CacheEntry) (c : Half) :
    cache.length ≤ (cacheAccess cfg cache c).cache.length := by
  rcases cacheAccess_cases cfg cache c with ⟨e, he, hk, h⟩ | ⟨_, h⟩
  · have hl := List.length_eraseP_of_mem (p := fun e => e.key == normalizeCeil c) he (by simp [hk])
    rw [h, List.length_cons, hl]
    omega
  · rw [h, List.length_cons]
    split
    · rw [List.length_dropLast]
      omega
    · omega

theorem length_le_accessAll (cfg : Config) (cache : List CacheEntry) (cs : List Half) :
    cache.length ≤ (accessAll cfg cache cs).length := by
  induction cs generalizing cache with
  | nil => exact le_rfl
  | cons c cs ih => exact (length_le_cacheAccess cfg cache c).trans (ih _)

theorem accessAll_keeps_ok {cfg : Config} {cache : List CacheEntry} (h : CacheOk cfg cache) (cs : List Half) :
    CacheOk cfg (accessAll cfg cache cs) := by
  induction cs generalizing cache with
  | nil => exact h
  | cons c cs ih => exact ih (cacheAccess_keeps_ok h c)

theorem CommandEffect.cache_length_le {s u : State} (h : CommandEffect s u) : s.cache.length ≤ u.cache.length := by
  cases h with
  | nothing | count _ | ceilings _ _ _ | pixel _ _ | clear => exact le_rfl
  | access c => exact length_le_cacheAccess s.cfg s.cache c
  | frame => exact length_le_accessAll s.cfg s.cache _

/-- Settles O31: a fault leaves the cache, and no accepted command shortens it. -/
theorem cacheShrinksOnlyByReset : Obligations.CacheShrinksOnlyByReset := by
  unfold Obligations.CacheShrinksOnlyByReset
  intro s t hno h
  rcases step_next_cases h with rfl | ⟨rest, hp, _⟩ | ⟨rest, c, rfl⟩ | ⟨rest, u, v, f, hu, rfl⟩
  · exact le_rfl
  · exact absurd hp (hno rest)
  · exact le_rfl
  · exact hu.cache_length_le

/-! ## The stores -/

@[simp] theorem length_wireBytes_pixelRecord (tR tG tB : RampTable) (p : Color) :
    (wireBytes (pixelRecord tR tG tB p)).length = 4 := by
  unfold pixelRecord record
  cases selectBrightness (tableEntry tR p.r) (tableEntry tG p.g) (tableEntry tB p.b) <;> rfl

/-- Four bytes for the start frame, four for each pixel, then the end frame (R190, R201). -/
theorem length_encodeFrame (pix : List Color) (tR tG tB : RampTable) :
    (encodeFrame pix tR tG tB).length = frameLen pix.length := by
  have hrecords : ((pix.map (pixelRecord tR tG tB)).flatMap wireBytes).length = pix.length * 4 := by
    simp [List.flatMap_map, List.length_flatMap]
  have hend : ((List.replicate (endFrameLen pix.length) Instr.wireEnd).flatMap wireBytes).length =
      endFrameLen pix.length := by
    simp [List.length_flatMap, wireBytes]
  unfold encodeFrame frameItems
  rw [List.cons_append, List.flatMap_cons, List.flatMap_append, List.length_append, List.length_append, hrecords, hend]
  simp only [wireBytes, List.length_cons, List.length_nil, endFrameLen, frameLen]
  omega

theorem PixelsOk.congr {s t : State} (h : PixelsOk s) (hcfg : t.cfg = s.cfg) (hn : t.npix = s.npix)
    (hp : t.pix = s.pix) : PixelsOk t where
  canonical := hp ▸ h.canonical
  bounded := by simpa only [hn, hp] using h.bounded
  countFits := by simpa only [hn, hcfg] using h.countFits

theorem FrameOk.congr {s t : State} (h : FrameOk s) (hn : t.npix = s.npix) (ho : t.out = s.out)
    (hl : t.outlen = s.outlen) : FrameOk t where
  canonical := ho ▸ h.canonical
  bounded := by simpa only [ho, hl] using h.bounded
  length := by simpa only [hn, hl] using h.length

/-- A store without a cell is in bounds whatever the count, if the count fits (R220, R223). -/
theorem pixelsOk_of_black {s : State} (hp : s.pix = blackStore) (hn : s.npix ≤ s.cfg.pixCap) : PixelsOk s where
  canonical := by rw [hp]; rfl
  bounded := by rw [hp]; exact fun _ hc => absurd hc List.not_mem_nil
  countFits := hn

/-- No frame is held (R35). -/
theorem frameOk_of_empty {s : State} (ho : s.out = []) (hl : s.outlen = 0) : FrameOk s where
  canonical := by rw [ho]; rfl
  bounded := by rw [ho]; exact fun _ hc => absurd hc List.not_mem_nil
  length := .inl (by rw [hl]; rfl)

/-- The three bytes of an existing pixel lie within `NPIX` (R222, R224). -/
theorem pixelsOk_setPixel {s : State} (h : PixelsOk s) {i : Nat} (hi : i < s.npix.toNat) (c : Color) :
    PixelsOk (setPixel s i c) where
  canonical := pixelWrite_wf h.canonical i c
  bounded x hx := by
    rw [setPixel_npix]
    rcases mem_of_mem_pixelWrite hx with ⟨_, hlt⟩ | hx
    · omega
    · exact h.bounded x hx
  countFits := h.countFits

/-- `OUTLEN` has room for every frame length, so it is the length of the frame stored (R27, R191, R202). -/
theorem frameOk_setFrame {s : State} {bs : List Byte} (h : bs.length = frameLen s.npix.toNat) :
    FrameOk (setFrame s bs (frameLen s.npix.toNat)) := by
  have hlen : (BitVec.ofNat 19 (frameLen s.npix.toNat)).toNat = frameLen s.npix.toNat :=
    BitVec.toNat_ofNat _ _ ▸ Nat.mod_eq_of_lt (frameLen_lt s.npix)
  refine ⟨memOfBytes_wf bs, fun c hc => ?_, .inr hlen⟩
  rw [setFrame_outlen, hlen, ← h, ← Nat.zero_add bs.length]
  exact memOfBytes_bounded 0 bs c hc

/-! ## The invariant -/

/-- Only the parameters, `NPIX`, the stores and the fault registers matter to the invariant: not the ceilings, the
response or the port. -/
theorem Inv.congr {s t : State} (h : Inv s) (hcfg : t.cfg = s.cfg) (hn : t.npix = s.npix) (hp : t.pix = s.pix)
    (hc : t.cache = s.cache) (ho : t.out = s.out) (hl : t.outlen = s.outlen) (hst : t.status = s.status)
    (hca : t.cause = s.cause) : Inv t where
  cache := by rw [hcfg, hc]; exact h.cache
  pixels := h.pixels.congr hcfg hn hp
  frame := h.frame.congr hn ho hl
  faultRegs := h.faultRegs.congr hst hca

theorem inv_takeOff {s : State} (h : Inv s) (rest : List PortEvent) : Inv { s with port := rest } :=
  h.congr rfl rfl rfl rfl rfl rfl rfl rfl

theorem inv_respondOk {s : State} (h : Inv s) (v : Word) (f : HitFlags) : Inv (respondOk s v f) :=
  h.congr rfl rfl rfl rfl rfl rfl rfl rfl

theorem inv_raiseFault {s : State} (h : Inv s) (c : Cause) : Inv (raiseFault s c) where
  cache := h.cache
  pixels := h.pixels.congr rfl rfl rfl
  frame := h.frame.congr rfl rfl rfl
  faultRegs := faultRegsOk_raiseFault h.faultRegs c

theorem inv_resetInput (s : State) : Inv (resetInput s) where
  cache := ⟨Nat.zero_le 6, List.nodup_nil, by simp, by simp⟩
  pixels := pixelsOk_of_black rfl (BitVec.le_def.mpr (Nat.zero_le _))
  frame := frameOk_of_empty rfl rfl
  faultRegs := ⟨by simp [State.err], Nat.zero_le 5⟩

/-- Every accepted command keeps the invariant (R34, R224, R27). -/
theorem CommandEffect.inv {s u : State} (h : CommandEffect s u) (hs : Inv s) : Inv u := by
  obtain ⟨hcache, hpixels, hframe, hfault⟩ := hs
  obtain ⟨hst, hca⟩ := h.faultRegs
  have hfault' : FaultRegsOk u := hfault.congr hst hca
  cases h with
  | nothing => exact ⟨hcache, hpixels, hframe, hfault⟩
  | count fits => exact ⟨hcache, pixelsOk_of_black rfl fits, frameOk_of_empty rfl rfl, hfault'⟩
  | ceilings _ _ _ => exact ⟨hcache, hpixels.congr rfl rfl rfl, hframe.congr rfl rfl rfl, hfault'⟩
  | pixel c hi => exact ⟨hcache, pixelsOk_setPixel hpixels hi c, hframe.congr rfl rfl rfl, hfault'⟩
  | clear => exact ⟨hcache, pixelsOk_of_black rfl hpixels.countFits, hframe.congr rfl rfl rfl, hfault'⟩
  | access c => exact ⟨cacheAccess_keeps_ok hcache c, hpixels.congr rfl rfl rfl, hframe.congr rfl rfl rfl, hfault'⟩
  | frame tR tG tB =>
    have hlen : (encodeFrame s.pixels tR tG tB).length = frameLen s.npix.toNat := by
      rw [length_encodeFrame, length_pixels]
    exact ⟨accessAll_keeps_ok hcache _, hpixels.congr rfl rfl rfl, frameOk_setFrame (s := setCache s _) hlen, hfault'⟩

/-- Settles O45: by the four things a step can leave. -/
theorem stepKeepsTheInvariant : Obligations.StepKeepsTheInvariant := by
  unfold Obligations.StepKeepsTheInvariant
  intro s t hs h
  rcases step_next_cases h with rfl | ⟨rest, _, rfl⟩ | ⟨rest, c, rfl⟩ | ⟨rest, u, v, f, hu, rfl⟩
  · exact hs
  · exact inv_resetInput _
  · exact inv_raiseFault (inv_takeOff hs rest) c
  · exact inv_respondOk (hu.inv (inv_takeOff hs rest)) v f

/-! ## Reset -/

/-- Settles O44: the reset state is what a reset input leaves of itself. -/
theorem invariantHoldsAtReset : Obligations.InvariantHoldsAtReset :=
  ⟨inv_resetInput State.reset, inv_resetInput⟩

/-- After a reset every register but `PIXCAP` reads 0 (R24, R38). -/
theorem readRegister_resetInput (s : State) {num : Byte} (h : num.toNat ≤ 13) :
    readRegister (resetInput s) num = some 0 := by
  unfold readRegister
  generalize num.toNat = n at h
  interval_cases n <;> rfl

/-- Settles O43: each register and store of the state `step_reset` leaves. -/
theorem resetLeavesTheResetState : Obligations.ResetLeavesTheResetState := by
  unfold Obligations.ResetLeavesTheResetState
  intro s rest hp
  exact ⟨_, step_reset hp, rfl, rfl, rfl, rfl, rfl, rfl, rfl, rfl, rfl, rfl,
    fun _ h => readRegister_resetInput _ h, rfl⟩

end Sys2Proof.Machine
end

section
/-! PROOFS. What a step runs (O5), and reading the frame that `ENCODE` left (O41): both outcomes of `RDOUT`, the frame
store after `ENCODE`, and `RDOUT` on a store that holds given bytes. -/

namespace Sys2Proof.Machine

/-! ## The word a step takes -/

/-- A word that decodes is performed (R95). -/
theorem runWord_of_decoded {w : Wide} {i : Instr} (h : decode w = .ok i) (s : State) : runWord w s = exec i s := by
  unfold runWord
  rw [h]

/-- A word that does not decode is refused with its cause (R94, R254). -/
theorem runWord_of_rejected {w : Wide} {c : Cause} (h : decode w = .error c) (s : State) :
    runWord w s = .next (raiseFault s c) := by
  unfold runWord
  rw [h]

/-- Settles O5: what the oldest input is decides the step, and for a word, what it decodes to. -/
theorem stepRunsTheDecodedInstruction : Obligations.StepRunsTheDecodedInstruction := by
  unfold Obligations.StepRunsTheDecodedInstruction
  exact fun s =>
    ⟨fun _ _ _ hp hd => (step_command hp).trans (runWord_of_decoded hd _),
     fun _ _ _ hp hd => (step_command hp).trans (runWord_of_rejected hd _),
     fun _ hp => step_reset hp,
     step_idle⟩

/-! ## Reading the frame -/

/-- `raiseFault` leaves what R254 says a fault leaves. -/
theorem faultedWith_raiseFault (s : State) (c : Cause) : FaultedWith c s (raiseFault s c) := by
  refine ⟨rfl, rfl, rfl, rfl, rfl, fun p hp => ?_⟩
  cases p with
  | status | cause => exact absurd hp (by decide)
  | pix | out => exact fun _ => rfl
  | npix | ceilR | ceilG | ceilB | cache | outlen => rfl

/-- `RDOUT` below `OUTLEN` answers the byte of the frame store (R206). -/
theorem exec_rdout_of_lt {s : State} {j : Word} (h : j.toNat < s.outlen.toNat) :
    exec (.rdout j) s = .next (respondOk s ((memRead s.out j.toNat).setWidth 32) noHits) := by
  rcases execRdout_cases j s with ⟨_, he⟩ | ⟨hge, _⟩
  · exact he
  · omega

/-- `RDOUT` at or past `OUTLEN` faults (R206). -/
theorem exec_rdout_of_ge {s : State} {j : Word} (h : s.outlen.toNat ≤ j.toNat) :
    exec (.rdout j) s = .next (raiseFault s .indexRange) := by
  rcases execRdout_cases j s with ⟨hlt, _⟩ | ⟨_, he⟩
  · omega
  · exact he

@[simp] theorem length_frameOf (s : State) : (frameOf s).length = frameLen s.npix.toNat := by
  rw [frameOf, length_encodeFrame, length_pixels]

/-- `OUT` holds exactly these bytes and `OUTLEN` is their number (R35). -/
structure HoldsFrame (s : State) (frame : List Byte) : Prop where
  out : s.out = memOfBytes 0 frame
  outlen : s.outlen.toNat = frame.length

/-- `setFrame` stores a frame for the present count whole: `OUTLEN` has room for its length (R191, R202). -/
theorem holdsFrame_setFrame {s : State} {frame : List Byte} (h : frame.length = frameLen s.npix.toNat) :
    HoldsFrame (setFrame s frame (frameLen s.npix.toNat)) frame where
  out := rfl
  outlen := by rw [setFrame_outlen, BitVec.toNat_ofNat, Nat.mod_eq_of_lt (frameLen_lt s.npix), h]

/-- What `ENCODE` leaves, if every cached table is that of its key: each of the three accesses returns the table of its
normalized ceiling, so the frame is `frameOf` (R202, R205). -/
theorem exec_encode {s : State} (hc : CacheOk s.cfg s.cache) :
    ∃ f, exec .encode s = .next
      (respondOk (setFrame (setCache s (accessAll s.cfg s.cache [s.ceilR, s.ceilG, s.ceilB])) (frameOf s)
        (frameLen s.npix.toNat)) (BitVec.ofNat 32 (frameLen s.npix.toNat)) f) := by
  have hcR := cacheAccess_keeps_ok hc s.ceilR
  have hcG := cacheAccess_keeps_ok hcR s.ceilG
  unfold frameOf
  rw [← cacheAccess_table hc s.ceilR, ← cacheAccess_table hcR s.ceilG, ← cacheAccess_table hcG s.ceilB]
  exact ⟨_, rfl⟩

/-- `ENCODE` leaves the frame of the present pixels and ceilings in `OUT` (R202). -/
theorem holdsFrame_of_encode {s t : State} (hc : CacheOk s.cfg s.cache) (h : exec .encode s = .next t) :
    HoldsFrame t (frameOf s) := by
  obtain ⟨f, he⟩ := exec_encode hc
  cases Host.Outcome.next.inj (h.symm.trans he)
  have hset := holdsFrame_setFrame (s := setCache s (accessAll s.cfg s.cache [s.ceilR, s.ceilG, s.ceilB]))
    (length_frameOf s)
  exact ⟨hset.out, hset.outlen⟩

/-- `RDOUT j` answers byte `j` of the frame held (R206). -/
theorem HoldsFrame.exec_rdout {s : State} {frame : List Byte} (h : HoldsFrame s frame) {j : Word} {v : Byte}
    (hv : frame[j.toNat]? = some v) : exec (.rdout j) s = .next (respondOk s (v.setWidth 32) noHits) := by
  obtain ⟨hj, _⟩ := List.getElem?_eq_some_iff.mp hv
  have hread : memRead s.out j.toNat = v := by
    rw [h.out, ← Nat.zero_add j.toNat, memRead_memOfBytes, List.getD_eq_getElem?_getD, hv, Option.getD_some]
  rw [exec_rdout_of_lt (by rw [h.outlen]; exact hj), hread]

/-- `RDOUT` past the frame held is the fault `INDEX_RANGE` (R206). -/
theorem HoldsFrame.exec_rdout_fault {s : State} {frame : List Byte} (h : HoldsFrame s frame) {j : Word}
    (hj : frame.length ≤ j.toNat) : ∃ u, exec (.rdout j) s = .next u ∧ FaultedWith .indexRange s u :=
  ⟨_, exec_rdout_of_ge (h.outlen.trans_le hj), faultedWith_raiseFault s .indexRange⟩

/-- Settles O41: `ENCODE` leaves `frameOf s` in the frame store, and `RDOUT` reads the frame held there. -/
theorem readOutAfterEncodeGivesTheFrame : Obligations.ReadOutAfterEncodeGivesTheFrame := by
  unfold Obligations.ReadOutAfterEncodeGivesTheFrame
  intro s t j hc h
  have hframe := holdsFrame_of_encode hc h
  exact ⟨fun v hv => ⟨_, hframe.exec_rdout hv, rfl⟩,
    fun hj => hframe.exec_rdout_fault ((length_frameOf s).trans_le hj)⟩

end Sys2Proof.Machine
end

section
/-! PROOFS. The command decoder and the encoder (O1 to O4): a row's mask splits over the four fields of a word, so what
decoding can answer is said once (`decode_cases`), and the statements are read off it. -/

namespace Sys2Proof.Machine

/-! ## The parts of a field -/

/-- A field whose high `m` bits are masked out is zero there (R93, R94(b)). -/
theorem and_highMask_eq_zero_iff {m n : Nat} (x : BitVec (m + n)) :
    x &&& (BitVec.allOnes m ++ 0#n) = 0#(m + n) ↔ x.extractLsb' n m = 0#m := by
  have hx : x.extractLsb' n m ++ x.extractLsb' 0 n = x := by
    rw [BitVec.extractLsb'_append_extractLsb'_eq_extractLsb' (Nat.zero_add n).symm, BitVec.extractLsb'_eq_self]
  have hmask : x &&& (BitVec.allOnes m ++ 0#n) = x.extractLsb' n m ++ 0#n := by
    conv_lhs => rw [← hx]
    rw [BitVec.and_append, BitVec.and_allOnes, BitVec.and_zero]
  rw [hmask, ← BitVec.zero_append_zero]
  exact ⟨fun h => by simpa only [BitVec.extractLsb'_append_eq_left] using congrArg (BitVec.extractLsb' n m) h,
    fun h => by rw [h]⟩

/-- A 32-bit field is its four bytes, first byte leftmost (R90, R98). -/
theorem append_bytes (w : Word) :
    w.extractLsb' 24 8 ++ w.extractLsb' 16 8 ++ w.extractLsb' 8 8 ++ w.extractLsb' 0 8 = w := by
  rw [BitVec.extractLsb'_append_extractLsb'_eq_extractLsb' (start₁ := 16) (start₂ := 24) rfl,
    BitVec.extractLsb'_append_extractLsb'_eq_extractLsb' (start₁ := 8) (start₂ := 16) rfl,
    BitVec.extractLsb'_append_extractLsb'_eq_extractLsb' (start₁ := 0) (start₂ := 8) rfl]
  exact BitVec.extractLsb'_eq_self

@[simp] theorem byte3_append (y b g r : Byte) : (y ++ b ++ g ++ r : Word).extractLsb' 24 8 = y :=
  (BitVec.extractLsb'_append_eq_of_le (by decide)).trans
    ((BitVec.extractLsb'_append_eq_of_le (by decide)).trans BitVec.extractLsb'_append_eq_left)

@[simp] theorem byte2_append (y b g r : Byte) : (y ++ b ++ g ++ r : Word).extractLsb' 16 8 = b :=
  (BitVec.extractLsb'_append_eq_of_le (by decide)).trans
    ((BitVec.extractLsb'_append_eq_of_le (by decide)).trans BitVec.extractLsb'_append_eq_right)

@[simp] theorem byte1_append (y b g r : Byte) : (y ++ b ++ g ++ r : Word).extractLsb' 8 8 = g :=
  (BitVec.extractLsb'_append_eq_of_le (by decide)).trans BitVec.extractLsb'_append_eq_right

@[simp] theorem byte0_append (y b g r : Byte) : (y ++ b ++ g ++ r : Word).extractLsb' 0 8 = r :=
  BitVec.extractLsb'_append_eq_right

/-! ## The rows of the opcode map, field by field -/

/-- The must-be-zero bits of the field `a` (R93). -/
def aMask : Opcode → Byte
  | .setn | .wpix | .clrpix | .encode | .rdout => BitVec.allOnes 8
  | .setceil => BitVec.allOnes 6 ++ 0#2
  | .ramp | .lookup | .rdreg => 0

/-- The must-be-zero bits of the field `h` (R93). -/
def hMask : Opcode → Half
  | .clrpix | .encode | .rdout | .rdreg => BitVec.allOnes 16
  | .setn | .setceil | .wpix | .ramp | .lookup => 0

/-- The must-be-zero bits of the field `w` (R93). -/
def wMask : Opcode → Word
  | .setn | .setceil | .clrpix | .ramp | .lookup | .encode | .rdreg => BitVec.allOnes 32
  | .wpix => BitVec.allOnes 8 ++ 0#24
  | .rdout => 0

/-- What R94(b) asks of the fields of a word with a row's `op`: every must-be-zero bit is zero. -/
def ZeroBits (o : Opcode) (a : Byte) (h : Half) (w : Word) : Prop :=
  match o with
  | .setn => a = 0 ∧ w = 0
  | .setceil => a.extractLsb' 2 6 = 0 ∧ w = 0
  | .wpix => a = 0 ∧ w.extractLsb' 24 8 = 0
  | .clrpix | .encode => a = 0 ∧ h = 0 ∧ w = 0
  | .ramp | .lookup => w = 0
  | .rdout => a = 0 ∧ h = 0
  | .rdreg => h = 0 ∧ w = 0

theorem maskOf_eq_pack (o : Opcode) : maskOf o = pack (BitVec.allOnes 8) (aMask o) (hMask o) (wMask o) := by
  cases o <;> decide

/-- A word with a row's `op` matches the row exactly when its must-be-zero bits are zero (R95 (2)). -/
theorem pack_matches_iff (o : Opcode) (a : Byte) (h : Half) (w : Word) :
    pack (opByte o) a h w &&& maskOf o = matchOf o ↔ ZeroBits o a h w := by
  have ha : a &&& (BitVec.allOnes 6 ++ 0#2) = 0#8 ↔ a.extractLsb' 2 6 = 0#6 :=
    and_highMask_eq_zero_iff (m := 6) (n := 2) a
  have hw : w &&& (BitVec.allOnes 8 ++ 0#24) = 0#32 ↔ w.extractLsb' 24 8 = 0#8 :=
    and_highMask_eq_zero_iff (m := 8) (n := 24) w
  rw [maskOf_eq_pack, matchOf_eq_pack, pack_and, pack_inj, BitVec.and_allOnes, eq_self_iff_true, true_and]
  cases o <;>
    simp only [ZeroBits, aMask, hMask, wMask, BitVec.and_allOnes, BitVec.and_zero, BitVec.ofNat_eq_ofNat, ha, hw,
      true_and, and_true]

theorem opByte_inj {p q : Opcode} : opByte p = opByte q ↔ p = q :=
  ⟨fun h => Option.some.inj ((opcodeOf_eq_some.mpr rfl).symm.trans (opcodeOf_eq_some.mpr h)), congrArg opByte⟩

/-! ## Decoding one row -/

/-- A word with a row's `op` gives its operands if it matches the row, and is reserved if not (R95). -/
theorem decode_of_row {o : Opcode} {x : Wide} (h : opField x = opByte o) :
    decode x = if x &&& maskOf o = matchOf o then operandsOf o x else .error .reservedField := by
  rw [decode, opcodeOf_eq_some.mpr h]

/-- A word of no row is illegal (R94(a)). -/
theorem decode_of_no_row {x : Wide} (h : ∀ o, opField x ≠ opByte o) : decode x = .error .illegalOpcode := by
  have hnone : opcodeOf (opField x) = none :=
    Option.eq_none_iff_forall_ne_some.mpr fun o ho => h o (opcodeOf_eq_some.mp ho)
  rw [decode, hnone]

/-- A legal word of a row gives its operands (R95). -/
theorem decode_pack_of_zeroBits {o : Opcode} {a : Byte} {h : Half} {w : Word} (hz : ZeroBits o a h w) :
    decode (pack (opByte o) a h w) = operandsOf o (pack (opByte o) a h w) := by
  rw [decode_of_row (opField_pack _ _ _ _), if_pos ((pack_matches_iff o a h w).mpr hz)]

/-- The operands of a legal word of a row make a command, and the word is the encoding of that command (R91 to R93). -/
theorem operandsOf_eq_ok {o : Opcode} {a : Byte} {h : Half} {w : Word} (hz : ZeroBits o a h w)
    (hch : ¬ (o = .setceil ∧ a.extractLsb' 0 2 = 3)) :
    ∃ i, operandsOf o (pack (opByte o) a h w) = .ok i ∧ i.isCommand = true ∧ i.wf = true ∧
      encode i = pack (opByte o) a h w := by
  cases o with
  | setn =>
    obtain ⟨rfl, rfl⟩ := hz
    exact ⟨.setn h, by simp [operandsOf], rfl, rfl, rfl⟩
  | setceil =>
    obtain ⟨ha, rfl⟩ := hz
    have hch : a.extractLsb' 0 2 ≠ 3 := fun h3 => hch ⟨rfl, h3⟩
    have hsplit : 0#6 ++ a.extractLsb' 0 2 = a := by
      rw [← BitVec.ofNat_eq_ofNat, ← ha,
        BitVec.extractLsb'_append_extractLsb'_eq_extractLsb' (start₁ := 0) (start₂ := 2) rfl]
      exact BitVec.extractLsb'_eq_self
    refine ⟨.setceil (a.extractLsb' 0 2) h, by simpa [operandsOf] using hch, rfl, bne_iff_ne.mpr hch, ?_⟩
    rw [encode, hsplit]
    rfl
  | wpix =>
    obtain ⟨rfl, hw⟩ := hz
    refine ⟨.wpix h (w.extractLsb' 16 8) (w.extractLsb' 8 8) (w.extractLsb' 0 8), by simp [operandsOf], rfl, rfl, ?_⟩
    rw [encode, ← BitVec.ofNat_eq_ofNat (n := 8), ← hw, append_bytes]
    rfl
  | clrpix =>
    obtain ⟨rfl, rfl, rfl⟩ := hz
    exact ⟨.clrpix, rfl, rfl, rfl, rfl⟩
  | ramp =>
    obtain rfl := hz
    exact ⟨.ramp a h, by simp [operandsOf], rfl, rfl, rfl⟩
  | lookup =>
    obtain rfl := hz
    exact ⟨.lookup a h, by simp [operandsOf], rfl, rfl, rfl⟩
  | encode =>
    obtain ⟨rfl, rfl, rfl⟩ := hz
    exact ⟨.encode, rfl, rfl, rfl, rfl⟩
  | rdout =>
    obtain ⟨rfl, rfl⟩ := hz
    exact ⟨.rdout w, by simp [operandsOf], rfl, rfl, rfl⟩
  | rdreg =>
    obtain ⟨rfl, rfl⟩ := hz
    exact ⟨.rdreg a, by simp [operandsOf], rfl, rfl, rfl⟩

/-! ## The classes of words -/

/-- A row of the opcode map (R92, R93). -/
def rowOf (o : Opcode) : CommandRow := ⟨opByte o, matchOf o, maskOf o⟩

theorem commandRows_eq :
    commandRows = [Opcode.setn, .setceil, .wpix, .clrpix, .ramp, .lookup, .encode, .rdout, .rdreg].map rowOf := by
  decide

theorem mem_commandRows {r : CommandRow} : r ∈ commandRows ↔ ∃ o, rowOf o = r := by
  rw [commandRows_eq, List.mem_map]
  exact ⟨fun ⟨o, _, h⟩ => ⟨o, h⟩, fun ⟨o, h⟩ => ⟨o, by cases o <;> decide, h⟩⟩

theorem assigned_iff {x : Wide} : Assigned x ↔ ∃ o, opField x = opByte o := by
  constructor
  · rintro ⟨r, hr, h⟩
    obtain ⟨o, rfl⟩ := mem_commandRows.mp hr
    exact ⟨o, h⟩
  · rintro ⟨o, h⟩
    exact ⟨rowOf o, mem_commandRows.mpr ⟨o, rfl⟩, h⟩

/-- Of a word with a row's `op`, only that row decides whether it is reserved (R94(b), (c)). -/
theorem reserved_iff {x : Wide} {o : Opcode} (h : opField x = opByte o) :
    Reserved x ↔ x &&& maskOf o ≠ matchOf o ∨ (o = .setceil ∧ (aField x).extractLsb' 0 2 = 3) := by
  unfold Reserved
  apply or_congr
  · constructor
    · rintro ⟨r, hr, hop, hne⟩
      obtain ⟨p, rfl⟩ := mem_commandRows.mp hr
      obtain rfl := opByte_inj.mp (h.symm.trans hop)
      exact hne
    · exact fun hne => ⟨rowOf o, mem_commandRows.mpr ⟨o, rfl⟩, h, hne⟩
  · rw [h]
    exact and_congr_left' (opByte_inj (q := .setceil))

/-- What decoding can answer: a word is illegal, reserved, or the encoding of the command it gives (R94, R95). -/
theorem decode_cases (x : Wide) :
    (¬ Assigned x ∧ decode x = .error .illegalOpcode) ∨
    (Assigned x ∧ Reserved x ∧ decode x = .error .reservedField) ∨
    (Assigned x ∧ ¬ Reserved x ∧ ∃ i, decode x = .ok i ∧ i.isCommand = true ∧ i.wf = true ∧ encode i = x) := by
  by_cases hx : Assigned x
  · obtain ⟨o, ho⟩ := assigned_iff.mp hx
    refine .inr ?_
    rw [reserved_iff ho, decode_of_row ho]
    by_cases hm : x &&& maskOf o = matchOf o
    · by_cases hch : o = .setceil ∧ (aField x).extractLsb' 0 2 = 3
      · refine .inl ⟨hx, .inr hch, ?_⟩
        obtain ⟨rfl, h3⟩ := hch
        rw [if_pos hm]
        exact if_pos h3
      · refine .inr ⟨hx, not_or.mpr ⟨not_not.mpr hm, hch⟩, ?_⟩
        have hpack : pack (opByte o) (aField x) (hField x) (wField x) = x := by rw [← ho, pack_fields]
        have hz := (pack_matches_iff o _ _ _).mp (by rw [hpack]; exact hm)
        rw [if_pos hm, ← hpack]
        exact operandsOf_eq_ok hz hch
    · exact .inl ⟨hx, .inl hm, if_neg hm⟩
  · exact .inl ⟨hx, decode_of_no_row fun o ho => hx (assigned_iff.mpr ⟨o, ho⟩)⟩

/-- Settles O2: of the three classes only a legal word decodes. -/
theorem decodedWordIsTheEncodingOfItsCommand : Obligations.DecodedWordIsTheEncodingOfItsCommand := by
  unfold Obligations.DecodedWordIsTheEncodingOfItsCommand
  intro x i h
  rcases decode_cases x with ⟨_, he⟩ | ⟨_, _, he⟩ | ⟨_, _, j, he, hj⟩
  · cases h.symm.trans he
  · cases h.symm.trans he
  · cases h.symm.trans he
    exact hj

/-- Settles O3: the three classes exclude each other, and so do the three answers. -/
theorem everyWordIsIllegalReservedOrLegal : Obligations.EveryWordIsIllegalReservedOrLegal := by
  unfold Obligations.EveryWordIsIllegalReservedOrLegal
  intro x
  rcases decode_cases x with ⟨ha, he⟩ | ⟨ha, hr, he⟩ | ⟨ha, hr, i, he, _⟩
  · simp [ha, he]
  · simp [ha, hr, he]
  · simp [ha, hr, he]

/-! ## The round trip -/

/-- The 64-bit decoder gives a well-formed command back from its encoding (R91 to R93). -/
theorem decode_encode {i : Instr} (hwf : i.wf = true) (hcmd : i.isCommand = true) : decode (encode i) = .ok i := by
  cases i with
  | setn n => exact (decode_pack_of_zeroBits (o := .setn) ⟨rfl, rfl⟩).trans (by simp [operandsOf])
  | setceil ch c =>
    refine (decode_pack_of_zeroBits (o := .setceil) ⟨BitVec.extractLsb'_append_eq_left, rfl⟩).trans ?_
    have hch : (0#6 ++ ch : Byte).extractLsb' 0 2 = ch := BitVec.extractLsb'_append_eq_right
    simpa [operandsOf, Instr.wf, hch] using hwf
  | wpix p r g b =>
    exact (decode_pack_of_zeroBits (o := .wpix) ⟨rfl, byte3_append _ _ _ _⟩).trans (by simp [operandsOf])
  | clrpix => rfl
  | ramp l c => exact (decode_pack_of_zeroBits (o := .ramp) rfl).trans (by simp [operandsOf])
  | lookup l c => exact (decode_pack_of_zeroBits (o := .lookup) rfl).trans (by simp [operandsOf])
  | encode => rfl
  | rdout j => exact (decode_pack_of_zeroBits (o := .rdout) ⟨rfl, rfl⟩).trans (by simp [operandsOf])
  | rdreg num => exact (decode_pack_of_zeroBits (o := .rdreg) ⟨rfl, rfl⟩).trans (by simp [operandsOf])
  | wireStart | wireLedB1 _ _ _ | wireLedB2 _ _ _ | wireLedB4 _ _ _ | wireLedB31 _ _ _ | wireEnd =>
    exact absurd hcmd Bool.false_ne_true

/-- An encoding has no bit above its row's (R90, R99 to R101). -/
theorem encode_mod_nbits (i : Instr) : (encode i).toNat % 2 ^ i.nbits = (encode i).toNat := by
  apply Nat.mod_eq_of_lt
  cases i with
  | wireStart | wireEnd => decide
  | wireLedB1 _ _ _ | wireLedB2 _ _ _ | wireLedB4 _ _ _ | wireLedB31 _ _ _ =>
    exact Laws.EncodingFitsRow.record_fits _
  | setn _ | setceil _ _ | wpix _ _ _ _ | clrpix | ramp _ _ | lookup _ _ | encode | rdout _ | rdreg _ =>
    exact BitVec.isLt _

theorem toNat_pack_zero (w : Word) : (pack 0 0 0 w).toNat = w.toNat := by
  simp only [pack, BitVec.toNat_append]
  simp

/-- A record's 32 bits are read by their four bytes (R100, R103). -/
theorem readWire32_append {y : Byte} (hy : y ≠ 0) (b g r : Byte) :
    readWire32 (y ++ b ++ g ++ r) = readRecord y b g r := by
  have hne : (y ++ b ++ g ++ r : Word) ≠ 0#32 := by
    intro h0
    have h3 := byte3_append y b g r
    rw [h0] at h3
    exact hy h3.symm
  rw [readWire32, if_neg hne, byte3_append, byte2_append, byte1_append, byte0_append]

/-- The table's decoder on 32 bits is the reader of a four-byte format (R99, R100). -/
theorem decodeTableWord_32 (w : Word) : decodeTableWord 32 (pack 0 0 0 w).toNat = (readWire32 w).toOption := by
  have hw : BitVec.ofNat 32 ((pack 0 0 0 w).toNat % 2 ^ 32) = w := by
    rw [toNat_pack_zero, Nat.mod_eq_of_lt w.isLt, BitVec.ofNat_toNat, BitVec.setWidth_eq]
  rw [decodeTableWord, if_neg (by decide), if_pos (by decide), hw]
  cases readWire32 w <;> rfl

/-- The table's decoder on 64 bits is the command decoder (R90). -/
theorem decodeTableWord_64 (x : Wide) : decodeTableWord 64 x.toNat = (decode x).toOption := by
  have hx : BitVec.ofNat 64 (x.toNat % 2 ^ 64) = x := by
    rw [Nat.mod_eq_of_lt x.isLt, BitVec.ofNat_toNat, BitVec.setWidth_eq]
  rw [decodeTableWord, if_neg (by decide), if_neg (by decide), hx]
  cases decode x <;> rfl

/-- The table's decoder gives a record back (R100). -/
theorem decodeTableWord_record {y b g r : Byte} {i : Instr} (hy : y ≠ 0) (hi : readRecord y b g r = .ok i) :
    decodeTableWord 32 (pack 0 0 0 (y ++ b ++ g ++ r)).toNat = some i := by
  rw [decodeTableWord_32, readWire32_append hy, hi]
  rfl

/-- Settles O1: a command by the 64-bit decoder, a wire format by the reader for its width. -/
theorem decodeOfEncodeIsTheInstruction : Obligations.DecodeOfEncodeIsTheInstruction := by
  unfold Obligations.DecodeOfEncodeIsTheInstruction
  intro i hwf
  refine ⟨?_, decode_encode hwf⟩
  cases i with
  | setn _ | setceil _ _ | wpix _ _ _ _ | clrpix | ramp _ _ | lookup _ _ | encode | rdout _ | rdreg _ =>
    exact (decodeTableWord_64 _).trans (congrArg Except.toOption (decode_encode hwf rfl))
  | wireStart | wireEnd => decide
  | wireLedB1 b g r => exact decodeTableWord_record (by decide) rfl
  | wireLedB2 b g r => exact decodeTableWord_record (by decide) rfl
  | wireLedB4 b g r => exact decodeTableWord_record (by decide) rfl
  | wireLedB31 b g r => exact decodeTableWord_record (by decide) rfl

/-- Settles O4: the decoders evaluated on the spec's own words. -/
theorem specWordsDecodeAsWritten : Obligations.SpecWordsDecodeAsWritten := by
  unfold Obligations.SpecWordsDecodeAsWritten
  decide

end Sys2Proof.Machine
end

section
/-! PROOFS. A command word at the port: the order of decoding (O6), the response it is answered with (O8), and the
refusal of a wire format (O20). -/

namespace Sys2Proof.Machine

/-! ## Decoding in order -/

/-- Settles O6: by the class of the word, which decides what the step runs. -/
theorem wordIsDecodedInOrder : Obligations.WordIsDecodedInOrder := by
  unfold Obligations.WordIsDecodedInOrder
  intro s w rest hp
  have hstep := step_command hp
  rcases decode_cases w with ⟨ha, he⟩ | ⟨ha, hr, he⟩ | ⟨ha, hr, i, he, _, hwf, henc⟩
  · have hfault := hstep.trans (runWord_of_rejected he _)
    exact ⟨fun _ => ⟨_, hfault, faultedWith_raiseFault _ _⟩, fun ha' => absurd ha' ha, fun ha' => absurd ha' ha⟩
  · have hfault := hstep.trans (runWord_of_rejected he _)
    exact ⟨fun ha' => absurd ha ha', fun _ _ => ⟨_, hfault, faultedWith_raiseFault _ _⟩, fun _ hr' => absurd hr hr'⟩
  · exact ⟨fun ha' => absurd ha ha', fun _ hr' => absurd hr' hr,
      fun _ _ => ⟨i, hwf, henc, hstep.trans (runWord_of_decoded he _)⟩⟩

/-! ## The response word -/

section
variable (err : Bool) (f : HitFlags) (cause : Byte) (value : Word)

@[simp] theorem errBit_responseWord : errBit (responseWord err f cause value) = err := by
  simp only [errBit, responseWord, BitVec.getLsbD_append]
  simp

@[simp] theorem hitBBit_responseWord : hitBBit (responseWord err f cause value) = f.hitB := by
  simp only [hitBBit, responseWord, BitVec.getLsbD_append]
  simp

@[simp] theorem hitGBit_responseWord : hitGBit (responseWord err f cause value) = f.hitG := by
  simp only [hitGBit, responseWord, BitVec.getLsbD_append]
  simp

@[simp] theorem hitRBit_responseWord : hitRBit (responseWord err f cause value) = f.hitR := by
  simp only [hitRBit, responseWord, BitVec.getLsbD_append]
  simp

@[simp] theorem valueField_responseWord : valueField (responseWord err f cause value) = value :=
  BitVec.extractLsb'_append_eq_right

@[simp] theorem causeField_responseWord : causeField (responseWord err f cause value) = cause :=
  (BitVec.extractLsb'_append_eq_of_le (by decide)).trans BitVec.extractLsb'_append_eq_right

/-- Bits 62:43 of a response are zero (R96). -/
@[simp] theorem zeroBits_responseWord : (responseWord err f cause value).extractLsb' 43 20 = 0 := by
  simp (disch := decide) only [responseWord, BitVec.extractLsb'_append_eq_of_le]
  exact BitVec.extractLsb'_append_eq_right

end

@[simp] theorem valueField_okWord (v : Word) (f : HitFlags) : valueField (okWord v f) = v :=
  valueField_responseWord false f 0 v

/-- What the block answers to a word: a fault, or an accepted command's `OK` (R96). -/
theorem runWord_cases (w : Wide) (s : State) :
    (∃ c, runWord w s = .next (raiseFault s c)) ∨
    (∃ u v f, CommandEffect s u ∧ runWord w s = .next (respondOk u v f)) := by
  cases hd : decode w with
  | error c => exact .inl ⟨c, runWord_of_rejected hd s⟩
  | ok i =>
    rw [runWord_of_decoded hd]
    exact exec_cases i s

/-- Settles O8: a word ends in `respondOk` or `raiseFault`, and both response words are read field by field. -/
theorem everyCommandIsAnsweredInTheResponseFormat : Obligations.EveryCommandIsAnsweredInTheResponseFormat := by
  unfold Obligations.EveryCommandIsAnsweredInTheResponseFormat
  refine ⟨fun s w rest hp => ?_, fun v f => ?_, fun c => ?_⟩
  · rw [step_command hp]
    rcases runWord_cases w { s with port := rest } with ⟨c, h⟩ | ⟨u, v, f, _, h⟩
    · exact ⟨_, _, h, raiseFault_response _ c, .inr ⟨c, rfl⟩⟩
    · exact ⟨_, _, h, respondOk_response u v f, .inl ⟨v, f, rfl⟩⟩
  · simp [okWord]
  · have hcode : causeCode c ≠ 0#8 := causeCode_ne_zero c
    simp [faultWord, noHits, hcode]

/-! ## Wire formats at the port -/

/-- The word of a wire format has `op` 0x00, of no command (R94(a), R108). -/
theorem opField_encode_wire {i : Instr} (h : i.isCommand = false) : opField (encode i) = 0 := by
  cases i with
  | setn _ | setceil _ _ | wpix _ _ _ _ | clrpix | ramp _ _ | lookup _ _ | encode | rdout _ | rdreg _ =>
    exact nomatch h
  | wireStart | wireEnd => decide
  | wireLedB1 _ _ _ | wireLedB2 _ _ _ | wireLedB4 _ _ _ | wireLedB31 _ _ _ => exact opField_pack _ _ _ _

theorem decode_encode_wire {i : Instr} (h : i.isCommand = false) : decode (encode i) = .error .illegalOpcode := by
  refine decode_of_no_row fun o => ?_
  rw [opField_encode_wire h]
  cases o <;> decide

theorem exec_wire {i : Instr} (h : i.isCommand = false) (s : State) :
    exec i s = .next (raiseFault s .illegalOpcode) := by
  cases i with
  | setn _ | setceil _ _ | wpix _ _ _ _ | clrpix | ramp _ _ | lookup _ _ | encode | rdout _ | rdreg _ =>
    exact nomatch h
  | wireStart | wireLedB1 _ _ _ | wireLedB2 _ _ _ | wireLedB4 _ _ _ | wireLedB31 _ _ _ | wireEnd => rfl

/-- The bits of an instruction, placed as the next word, are its encoding (log 8). -/
theorem withFetchWord_encode (i : Instr) (s : State) :
    s.withFetchWord i.nbits (encode i).toNat = presentNext s (encode i) := by
  rw [State.withFetchWord, presentBits, encode_mod_nbits, BitVec.ofNat_toNat, BitVec.setWidth_eq]

/-- Settles O20: the instruction and its word are refused alike. -/
theorem wireFormatsAreRefusedAsCommands : Obligations.WireFormatsAreRefusedAsCommands := by
  unfold Obligations.WireFormatsAreRefusedAsCommands
  intro i s h
  refine ⟨⟨_, exec_wire h s, faultedWith_raiseFault s _⟩, ?_⟩
  rw [withFetchWord_encode, step_command (presentNext_port s _), runWord_of_rejected (decode_encode_wire h),
    exec_wire h]
  rfl

end Sys2Proof.Machine
end

section
/-! PROOFS. The reader of the output stream (O38, O39): exactly the bytes of a start frame, `n` LED records and an end
frame are read, so reading inverts emitting in both directions. -/

namespace Sys2Proof.Machine

/-- Four bytes are read as a record exactly when they are the bytes of one (R100, R103). -/
theorem readRecord_eq_ok_iff {y b g r : Byte} {i : Instr} :
    readRecord y b g r = .ok i ↔ IsLedRecord i ∧ wireBytes i = [y, b, g, r] := by
  constructor
  · intro h
    unfold readRecord at h
    split at h
    · cases h; exact ⟨⟨b, g, r, .inl rfl⟩, by simp [wireBytes, *]⟩
    split at h
    · cases h; exact ⟨⟨b, g, r, .inr (.inl rfl)⟩, by simp [wireBytes, *]⟩
    split at h
    · cases h; exact ⟨⟨b, g, r, .inr (.inr (.inl rfl))⟩, by simp [wireBytes, *]⟩
    split at h
    · cases h; exact ⟨⟨b, g, r, .inr (.inr (.inr rfl))⟩, by simp [wireBytes, *]⟩
    · cases h
  · rintro ⟨⟨b', g', r', rfl | rfl | rfl | rfl⟩, hbytes⟩ <;> cases hbytes <;> rfl

theorem IsLedRecord.exists_bytes {i : Instr} (h : IsLedRecord i) : ∃ y b g r, wireBytes i = [y, b, g, r] := by
  obtain ⟨b, g, r, rfl | rfl | rfl | rfl⟩ := h <;> exact ⟨_, b, g, r, rfl⟩

/-- The record of a pixel is one of the four formats (R198, R199). -/
theorem isLedRecord_pixelRecord (tR tG tB : RampTable) (p : Color) : IsLedRecord (pixelRecord tR tG tB p) := by
  unfold pixelRecord record
  cases selectBrightness (tableEntry tR p.r) (tableEntry tG p.g) (tableEntry tB p.b) with
  | br1 => exact ⟨_, _, _, .inl rfl⟩
  | br2 => exact ⟨_, _, _, .inr (.inl rfl)⟩
  | br4 => exact ⟨_, _, _, .inr (.inr (.inl rfl))⟩
  | br31 => exact ⟨_, _, _, .inr (.inr (.inr rfl))⟩

/-- `n` records are read exactly off the bytes of `n` records (R102). -/
theorem readRecords_eq_ok_iff {n : Nat} {bs rest : List Byte} {is : List Instr} :
    readRecords n bs = .ok (is, rest) ↔
      is.length = n ∧ (∀ i ∈ is, IsLedRecord i) ∧ bs = is.flatMap wireBytes ++ rest := by
  induction n generalizing bs is with
  | zero =>
    constructor
    · intro h
      cases h
      exact ⟨rfl, by simp, rfl⟩
    · rintro ⟨hlen, _, rfl⟩
      rw [List.length_eq_zero_iff.mp hlen]
      rfl
  | succ n ih =>
    constructor
    · intro h
      match bs, h with
      | y :: b :: g :: r :: bs, h =>
        unfold readRecords at h
        cases hi : readRecord y b g r with
        | error e => rw [hi] at h; cases h
        | ok i =>
          obtain ⟨hrec, hbytes⟩ := readRecord_eq_ok_iff.mp hi
          cases hr : readRecords n bs with
          | error e => rw [hi, hr] at h; cases h
          | ok p =>
            obtain ⟨is', rest'⟩ := p
            rw [hi, hr] at h
            cases h
            obtain ⟨hlen, hrecs, rfl⟩ := ih.mp hr
            exact ⟨by simp [hlen], by simpa using ⟨hrec, hrecs⟩, by simp [hbytes]⟩
    · rintro ⟨hlen, hrecs, rfl⟩
      cases is with
      | nil => cases hlen
      | cons i is =>
        obtain ⟨hrec, hrecs⟩ := List.forall_mem_cons.mp hrecs
        obtain ⟨y, b, g, r, hbytes⟩ := hrec.exists_bytes
        have hrest := ih.mpr ⟨Nat.succ.inj hlen, hrecs, rfl⟩
        rw [List.flatMap_cons, hbytes]
        show readRecords (n + 1) (y :: b :: g :: r :: (is.flatMap wireBytes ++ rest)) = _
        rw [readRecords, readRecord_eq_ok_iff.mpr ⟨hrec, hbytes⟩]
        simp only [hrest]

theorem flatMap_wireBytes_replicate_wireEnd (k : Nat) :
    (List.replicate k Instr.wireEnd).flatMap wireBytes = List.replicate k 0xFF#8 := by
  induction k with
  | zero => rfl
  | succ k ih => rw [List.replicate_succ, List.flatMap_cons, ih]; rfl

/-- A stream is read exactly when it is the bytes of a start frame, `n` records and the end frame (R98, R102). -/
theorem readFrame_eq_ok_iff {n : Nat} {bs : List Byte} {is : List Instr} :
    readFrame n bs = .ok is ↔
      ∃ recs, recs.length = n ∧ (∀ i ∈ recs, IsLedRecord i) ∧
        is = .wireStart :: recs ++ List.replicate (endFrameLen n) .wireEnd ∧ bs = is.flatMap wireBytes := by
  constructor
  · intro h
    unfold readFrame at h
    split at h
    · next hstart =>
      cases hr : readRecords n (bs.drop 4) with
      | error e => rw [hr] at h; cases h
      | ok p =>
        obtain ⟨recs, rest⟩ := p
        obtain ⟨hlen, hrecs, hdrop⟩ := readRecords_eq_ok_iff.mp hr
        simp only [hr] at h
        split at h
        · next hend =>
          cases h
          refine ⟨recs, hlen, hrecs, rfl, ?_⟩
          rw [← List.take_append_drop 4 bs, hstart, hdrop, hend, List.cons_append, List.flatMap_cons,
            List.flatMap_append, flatMap_wireBytes_replicate_wireEnd]
        · cases h
    · cases h
  · rintro ⟨recs, hlen, hrecs, rfl, rfl⟩
    have hr : readRecords n (recs.flatMap wireBytes ++ List.replicate (endFrameLen n) 0xFF#8) =
        .ok (recs, List.replicate (endFrameLen n) 0xFF#8) := readRecords_eq_ok_iff.mpr ⟨hlen, hrecs, rfl⟩
    have htake : ∀ l : List Byte, (wireBytes .wireStart ++ l).take 4 = wireBytes .wireStart := fun _ => rfl
    have hdrop : ∀ l : List Byte, (wireBytes .wireStart ++ l).drop 4 = l := fun _ => rfl
    rw [List.cons_append, List.flatMap_cons, List.flatMap_append, flatMap_wireBytes_replicate_wireEnd, readFrame,
      if_pos (htake _), hdrop, hr]
    exact if_pos rfl

/-- Settles O38: the encoder emits a start frame, a record for each pixel and the end frame. -/
theorem frameReadsBackAsEmitted : Obligations.FrameReadsBackAsEmitted := by
  unfold Obligations.FrameReadsBackAsEmitted
  intro pix tR tG tB
  refine readFrame_eq_ok_iff.mpr ⟨pix.map (pixelRecord tR tG tB), List.length_map _, ?_, rfl, rfl⟩
  exact List.forall_mem_map.mpr fun p _ => isLedRecord_pixelRecord tR tG tB p

/-- The bytes of LED records, four for each (R100). -/
theorem length_flatMap_wireBytes {recs : List Instr} (h : ∀ i ∈ recs, IsLedRecord i) :
    (recs.flatMap wireBytes).length = 4 * recs.length := by
  induction recs with
  | nil => rfl
  | cons i is ih =>
    obtain ⟨hrec, hrecs⟩ := List.forall_mem_cons.mp h
    obtain ⟨y, b, g, r, hbytes⟩ := hrec.exists_bytes
    rw [List.flatMap_cons, List.length_append, ih hrecs, hbytes]
    simp only [List.length_cons, List.length_nil]
    omega

/-- Settles O39: what was read is the parts of the stream, whose lengths add up to the formula's. -/
theorem readerAcceptsOnlyFrames : Obligations.ReaderAcceptsOnlyFrames := by
  unfold Obligations.ReaderAcceptsOnlyFrames
  intro n bs is h
  obtain ⟨recs, hlen, hrecs, rfl, rfl⟩ := readFrame_eq_ok_iff.mp h
  refine ⟨rfl, ?_, recs, rfl, hlen, hrecs⟩
  rw [List.cons_append, List.flatMap_cons, List.flatMap_append, flatMap_wireBytes_replicate_wireEnd,
    List.length_append, List.length_append, length_flatMap_wireBytes hrecs, List.length_replicate, hlen]
  simp only [wireBytes, List.length_cons, List.length_nil, endFrameLen, frameLen]
  omega

end Sys2Proof.Machine
end

section
/-! PROOFS. The host's exchanges (O52, O58 to O60): what each command the host issues leaves unchanged, painting a
buffer pixel by pixel, and reading the held frame out; a tick and an encode call are these in sequence. -/

namespace Sys2Proof.Machine

/-! ## What stays unchanged -/

theorem samePart_trans {p : Part} {s t u : State} (h : samePart p s t) (h' : samePart p t u) : samePart p s u := by
  cases p with
  | pix | out => exact fun a => (h' a).trans (h a)
  | npix | ceilR | ceilG | ceilB | cache | outlen | status | cause => exact Eq.trans h' h

section
variable {written : List Part} {s t u : State}

theorem UnchangedBut.same (h : UnchangedBut written s t) (p : Part) (hp : p ∉ written := by decide) :
    samePart p s t := by
  obtain ⟨_, _, hsame⟩ := h
  exact hsame p hp

theorem UnchangedBut.cfg (h : UnchangedBut written s t) : t.cfg = s.cfg := by
  obtain ⟨hcfg, _, _⟩ := h
  exact hcfg

theorem UnchangedBut.mono {written' : List Part} (h : UnchangedBut written s t) (hsub : written ⊆ written') :
    UnchangedBut written' s t := by
  obtain ⟨hcfg, hport, hsame⟩ := h
  exact ⟨hcfg, hport, fun p hp => hsame p fun hp' => hp (hsub hp')⟩

theorem UnchangedBut.trans (h : UnchangedBut written s t) (h' : UnchangedBut written t u) :
    UnchangedBut written s u := by
  obtain ⟨hcfg, hport, hsame⟩ := h
  obtain ⟨hcfg', hport', hsame'⟩ := h'
  exact ⟨hcfg'.trans hcfg, hport'.trans hport, fun p hp => samePart_trans (hsame p hp) (hsame' p hp)⟩

/-- The pixels are those of `NPIX` and the pixel store, as it reads (R32, R61). -/
theorem UnchangedBut.pixels (h : UnchangedBut written s t) (hn : Part.npix ∉ written := by decide)
    (hp : Part.pix ∉ written := by decide) : t.pixels = s.pixels := by
  have hnpix : t.npix = s.npix := h.same .npix hn
  have hread : ∀ a, memRead t.pix a = memRead s.pix a := h.same .pix hp
  have hpixel : pixelAt t.pix = pixelAt s.pix := funext fun i => by simp only [pixelAt, hread]
  rw [State.pixels, hnpix, hpixel, State.pixels]

end

/-- A response is no part of the tuple (R20, R96). -/
theorem unchangedBut_response (s : State) (x : Option Wide) : UnchangedBut [] s { s with response := x } := by
  refine ⟨rfl, rfl, fun p _ => ?_⟩
  cases p with
  | pix | out => exact fun _ => rfl
  | npix | ceilR | ceilG | ceilB | cache | outlen | status | cause => rfl

theorem UnchangedBut.refl (written : List Part) (s : State) : UnchangedBut written s s :=
  (unchangedBut_response s s.response).mono (List.nil_subset _)

theorem UnchangedBut.setResponse {written : List Part} {s t : State} (h : UnchangedBut written s t) (x : Option Wide) :
    UnchangedBut written s { t with response := x } :=
  h.trans ((unchangedBut_response t x).mono (List.nil_subset _))

/-- What three `SETCEIL`s leave (R105, R107, R221). -/
def withCeilings (s : State) (r g b : Half) : State :=
  respondOk { s with ceilR := r, ceilG := g, ceilB := b } 0 noHits

theorem unchangedBut_withCeilings (s : State) (r g b : Half) :
    UnchangedBut [.ceilR, .ceilG, .ceilB] s (withCeilings s r g b) := by
  refine ⟨rfl, rfl, fun p hp => ?_⟩
  cases p with
  | ceilR | ceilG | ceilB => exact absurd hp (by decide)
  | pix | out => exact fun _ => rfl
  | npix | cache | outlen | status | cause => rfl

theorem unchangedBut_pix (s : State) (m : Memory) : UnchangedBut [.pix] s { s with pix := m } := by
  refine ⟨rfl, rfl, fun p hp => ?_⟩
  cases p with
  | pix => exact absurd hp (by decide)
  | out => exact fun _ => rfl
  | npix | ceilR | ceilG | ceilB | cache | outlen | status | cause => rfl

theorem unchangedBut_setFrame_setCache (s : State) (cache : List CacheEntry) (frame : List Byte) (len : Nat) :
    UnchangedBut [.cache, .out, .outlen] s (setFrame (setCache s cache) frame len) := by
  refine ⟨rfl, rfl, fun p hp => ?_⟩
  cases p with
  | cache | out | outlen => exact absurd hp (by decide)
  | pix => exact fun _ => rfl
  | npix | ceilR | ceilG | ceilB | status | cause => rfl

/-! ## Issuing one command -/

/-- Issuing a well-formed command is performing it (R70, R95). -/
theorem issue_command {i : Instr} (hwf : i.wf = true) (hcmd : i.isCommand = true) (s : State) : issue i s = exec i s :=
  issue_eq_exec (decode_encode hwf hcmd) s

/-- A step that takes the word of a command performs it (R95). -/
theorem runSteps_command {i : Instr} {s t : State} {rest : List PortEvent} (hwf : i.wf = true)
    (hcmd : i.isCommand = true) (hp : s.port = .command (encode i) :: rest)
    (h : exec i { s with port := rest } = .next t) (k : Nat) : runSteps (k + 1) s = runSteps k t := by
  rw [runSteps, step_command hp, runWord_of_decoded (decode_encode hwf hcmd), h]

theorem exec_next (i : Instr) (s : State) : ∃ t, exec i s = .next t := by
  rcases exec_cases i s with ⟨_, h⟩ | ⟨_, _, _, _, h⟩ <;> exact ⟨_, h⟩

/-- `CLRPIX` (R223). -/
theorem issue_clrpix (s : State) : issue .clrpix s = .next (respondOk (clearPixels s) 0 noHits) :=
  issue_command rfl rfl s

/-- `WPIX` to a pixel that exists (R222). -/
theorem issue_wpix {s : State} {i : Nat} (hi : i < s.npix.toNat) (c : Color) :
    issue (.wpix (BitVec.ofNat 16 i) c.r c.g c.b) s = .next (respondOk (setPixel s i c) 0 noHits) := by
  have hlt := s.npix.isLt
  have htoNat : (BitVec.ofNat 16 i).toNat = i := by rw [BitVec.toNat_ofNat, Nat.mod_eq_of_lt (by omega)]
  rw [issue_command rfl rfl]
  rcases execWpix_cases (BitVec.ofNat 16 i) c.r c.g c.b s with ⟨_, h⟩ | ⟨hge, _⟩
  · rw [htoNat] at h
    exact h
  · omega

/-- `RDOUT` of a byte that exists (R206). -/
theorem issue_rdout {s : State} {j : Nat} (hj : j < s.outlen.toNat) :
    issue (.rdout (BitVec.ofNat 32 j)) s = .next (respondOk s ((memRead s.out j).setWidth 32) noHits) := by
  have hlt := s.outlen.isLt
  have htoNat : (BitVec.ofNat 32 j).toNat = j := by rw [BitVec.toNat_ofNat, Nat.mod_eq_of_lt (by omega)]
  rw [issue_command rfl rfl, exec_rdout_of_lt (by rw [htoNat]; exact hj), htoNat]

/-- `RDREG 4` answers `OUTLEN` (R24, R226). -/
theorem issue_rdreg_outlen (s : State) :
    issue (.rdreg 4) s = .next (respondOk s (s.outlen.setWidth 32) noHits) := issue_command rfl rfl s

/-! ## The ceilings -/

/-- Three `SETCEIL`s leave the three ceilings (R105, R221). -/
theorem issueAll_setCeilingsCommands (s : State) (cR cG cB : Half) :
    ∃ xs, issueAll (setCeilingsCommands cR cG cB) s = .next (withCeilings s cR cG cB, xs) :=
  ⟨_, issueAll_cons (issue_command rfl rfl s) (issueAll_cons (issue_command rfl rfl _)
    (issueAll_single (issue_command rfl rfl _)))⟩

/-- The same three words standing at the port (R107). -/
theorem runSteps_setmaxCommands {c : Half} {s : State} {rest : List PortEvent}
    (hp : s.port = commandEvents (setmaxCommands c) ++ rest) :
    runSteps 3 s = .next (withCeilings { s with port := rest } c c c) := by
  rw [runSteps_command rfl rfl hp rfl, runSteps_command rfl rfl rfl rfl, runSteps_command rfl rfl rfl rfl]
  rfl

/-- Settles O52: the ceilings are what three `SETCEIL`s leave; the other changes are one `SETN` and no command. -/
theorem setmaxSetsTheThreeCeilings : Obligations.SetmaxSetsTheThreeCeilings := by
  unfold Obligations.SetmaxSetsTheThreeCeilings
  refine ⟨fun c s rest hp => ?_, fun c a s => ?_, fun n a s => ?_, fun f a s => hostChange_frameRate f a s⟩
  · exact ⟨_, runSteps_setmaxCommands hp, rfl, rfl, rfl, unchangedBut_withCeilings _ c c c⟩
  · obtain ⟨xs, h⟩ := issueAll_setCeilingsCommands s c c c
    exact ⟨_, issueFor_eq h _, rfl, rfl, rfl, unchangedBut_withCeilings s c c c⟩
  · obtain ⟨t, h⟩ := exec_next (.setn n) s
    exact ⟨t, hostChange_pixelCount ((issue_command rfl rfl s).trans h) a, h⟩

/-! ## Reading the frame out -/

theorem lastValue_concat (xs : List Wide) (x : Wide) : lastValue (xs ++ [x]) = (valueField x).toNat := by
  rw [lastValue, List.getLastD_concat]

/-- `OUTLEN` in a response is read back whole (R27, R226). -/
theorem toNat_valueField_outlen (s : State) (f : HitFlags) :
    (valueField (okWord (s.outlen.setWidth 32) f)).toNat = s.outlen.toNat := by
  rw [valueField_okWord, BitVec.toNat_setWidth_of_le (by decide)]

/-- `RDOUT`s of bytes that exist answer them and leave the tuple (R206). -/
theorem issueAll_rdout {js : List Nat} {s : State} (h : ∀ j ∈ js, j < s.outlen.toNat) :
    ∃ x, issueAll (js.map fun j => .rdout (BitVec.ofNat 32 j)) s =
      .next ({ s with response := x }, js.map fun j => okWord ((memRead s.out j).setWidth 32) noHits) := by
  induction js generalizing s with
  | nil => exact ⟨s.response, rfl⟩
  | cons j js ih =>
    obtain ⟨hj, hjs⟩ := List.forall_mem_cons.mp h
    obtain ⟨x, hx⟩ := ih (s := respondOk s ((memRead s.out j).setWidth 32) noHits) hjs
    exact ⟨x, issueAll_cons (issue_rdout hj) hx⟩

theorem answeredBytes_okWord (js : List Nat) (bytes : Nat → Byte) :
    answeredBytes (js.map fun j => okWord ((bytes j).setWidth 32) noHits) = js.map bytes := by
  simp [answeredBytes]

/-- After commands whose last response gave `OUTLEN`, the read-out gives the frame store's bytes (R107). -/
theorem readOutAfter_outlen {is : List Instr} {s t : State} {xs : List Wide} (h : issueAll is s = .next (t, xs))
    (hlast : lastValue xs = t.outlen.toNat) :
    ∃ x, readOutAfter is s =
      .next ({ t with response := x }, (List.range t.outlen.toNat).map (memRead t.out)) := by
  obtain ⟨x, hx⟩ := issueAll_rdout (js := List.range t.outlen.toNat) (s := t) fun j hj => List.mem_range.mp hj
  rw [← answeredBytes_okWord]
  exact ⟨x, readOutAfter_eq h (by rw [hlast]; exact hx)⟩

/-- The bytes below `OUTLEN` are the frame held (R35). -/
theorem HoldsFrame.bytes {s : State} {frame : List Byte} (h : HoldsFrame s frame) :
    (List.range s.outlen.toNat).map (memRead s.out) = frame := by
  rw [h.outlen, h.out]
  refine List.ext_getElem (by simp) fun j _ hj => ?_
  have hread := memRead_memOfBytes 0 frame j
  rw [Nat.zero_add, List.getD_eq_getElem?_getD, List.getElem?_eq_getElem hj, Option.getD_some] at hread
  rw [List.getElem_map, List.getElem_range, hread]

/-- Settles O58: `RDREG 4` answers `OUTLEN`, then every byte is read. -/
theorem rdframeReadsTheHeldFrame : Obligations.RdframeReadsTheHeldFrame := by
  unfold Obligations.RdframeReadsTheHeldFrame
  intro s
  obtain ⟨x, hx⟩ := readOutAfter_outlen (issueAll_single (issue_rdreg_outlen s)) (toNat_valueField_outlen s noHits)
  exact ⟨_, hx, unchangedBut_response s x⟩

/-! ## Painting a buffer -/

/-- From `s` to `t`: the pixels from index `i` on became the buffer's, and nothing else of the tuple changed. -/
structure Painted (i : Nat) (buffer : List Color) (s t : State) : Prop where
  unchanged : UnchangedBut [.pix] s t
  canonical : t.pix.wf = true
  below : ∀ p, p < i → pixelAt t.pix p = pixelAt s.pix p
  painted : ∀ k c, buffer[k]? = some c → pixelAt t.pix (i + k) = c

theorem painted_nil {s : State} (h : s.pix.wf = true) (i : Nat) : Painted i [] s s :=
  ⟨.refl _ s, h, fun _ _ => rfl, by simp⟩

/-- One pixel, then the others. -/
theorem Painted.cons {i : Nat} {c : Color} {cs : List Color} {s u t : State} (h : Painted (i + 1) cs u t)
    (hu : UnchangedBut [.pix] s u) (hbelow : ∀ p, p < i → pixelAt u.pix p = pixelAt s.pix p)
    (hat : pixelAt u.pix i = c) : Painted i (c :: cs) s t where
  unchanged := hu.trans h.unchanged
  canonical := h.canonical
  below p hp := (h.below p (by omega)).trans (hbelow p hp)
  painted k c' hc := by
    cases k with
    | zero =>
      obtain rfl := Option.some.inj hc
      exact (h.below i (by omega)).trans hat
    | succ k =>
      have hk := h.painted k c' hc
      rwa [Nat.add_right_comm] at hk

/-- A pixel that is written (R222). -/
theorem Painted.cons_write {i : Nat} {c : Color} {cs : List Color} {s t : State} (hwf : s.pix.wf = true)
    (h : Painted (i + 1) cs (respondOk (setPixel s i c) 0 noHits) t) : Painted i (c :: cs) s t := by
  refine h.cons ((unchangedBut_pix s _).setResponse _) ?_ ?_
  · intro p hp
    exact (pixelAt_pixelWrite hwf i c p).trans (if_neg (by omega))
  · exact (pixelAt_pixelWrite hwf i c i).trans (if_pos rfl)

/-- A `WPIX` for every pixel paints the buffer (R105). -/
theorem issueAll_setPixelsCommands {i : Nat} {buffer : List Color} {s : State} (hwf : s.pix.wf = true)
    (hlen : i + buffer.length ≤ s.npix.toNat) :
    ∃ t xs, issueAll (setPixelsCommands i buffer) s = .next (t, xs) ∧ Painted i buffer s t := by
  induction buffer generalizing i s with
  | nil => exact ⟨s, [], rfl, painted_nil hwf i⟩
  | cons c cs ih =>
    rw [List.length_cons] at hlen
    obtain ⟨t, xs, h, hp⟩ := ih (i := i + 1) (s := respondOk (setPixel s i c) 0 noHits) (pixelWrite_wf hwf i c)
      (by rw [respondOk_npix, setPixel_npix]; omega)
    exact ⟨t, _, issueAll_cons (issue_wpix (by omega) c) h, hp.cons_write hwf⟩

/-- On black pixels a `WPIX` for every pixel that is not black paints the buffer (R134; log 15). -/
theorem issueAll_writePixelCommands {i : Nat} {buffer : List Color} {s : State} (hwf : s.pix.wf = true)
    (hlen : i + buffer.length ≤ s.npix.toNat) (hblack : ∀ p, i ≤ p → pixelAt s.pix p = Color.black) :
    ∃ t xs, issueAll (writePixelCommands i buffer) s = .next (t, xs) ∧ Painted i buffer s t := by
  induction buffer generalizing i s with
  | nil => exact ⟨s, [], rfl, painted_nil hwf i⟩
  | cons c cs ih =>
    rw [List.length_cons] at hlen
    by_cases hc : c = Color.black
    · obtain ⟨t, xs, h, hp⟩ := ih (i := i + 1) hwf (by omega) fun p hp => hblack p (by omega)
      refine ⟨t, xs, by rw [writePixelCommands, if_pos hc]; exact h, ?_⟩
      exact hp.cons (.refl _ s) (fun _ _ => rfl) ((hblack i le_rfl).trans hc.symm)
    · obtain ⟨t, xs, h, hp⟩ := ih (i := i + 1) (s := respondOk (setPixel s i c) 0 noHits) (pixelWrite_wf hwf i c)
        (by rw [respondOk_npix, setPixel_npix]; omega)
        fun p hp => (pixelAt_pixelWrite hwf i c p).trans ((if_neg (by omega)).trans (hblack p (by omega)))
      exact ⟨t, _, by rw [writePixelCommands, if_neg hc]; exact issueAll_cons (issue_wpix (by omega) c) h,
        hp.cons_write hwf⟩

/-- A buffer of `NPIX` colours, painted from index 0, is the pixels (R32). -/
theorem Painted.pixels {buffer : List Color} {s t : State} (h : Painted 0 buffer s t)
    (hlen : s.npix.toNat = buffer.length) : t.pixels = buffer := by
  have hn : t.npix = s.npix := h.unchanged.same .npix
  refine List.ext_getElem (by rw [length_pixels, hn, hlen]) fun k _ hk => ?_
  have hc := h.painted k buffer[k] (List.getElem?_eq_getElem hk)
  rw [Nat.zero_add] at hc
  simpa [State.pixels] using hc

/-! ## Encoding and reading out -/

/-- `ENCODE` after other commands: it holds the frame of the state they left, and answers its length (R202). -/
theorem issueAll_encode {is : List Instr} {s u : State} {xs : List Wide} (h : issueAll is s = .next (u, xs))
    (hc : CacheOk u.cfg u.cache) :
    ∃ t x, issueAll (is ++ [.encode]) s = .next (t, xs ++ [x]) ∧ (valueField x).toNat = t.outlen.toNat ∧
      HoldsFrame t (frameOf u) ∧ UnchangedBut [.cache, .out, .outlen] u t := by
  obtain ⟨f, he⟩ := exec_encode hc
  have hframe := holdsFrame_of_encode hc he
  refine ⟨_, _, issueAll_append h (issueAll_single ((issue_command rfl rfl u).trans he)), ?_, hframe, ?_⟩
  · rw [hframe.outlen, length_frameOf, respondOk_response, Option.getD_some, valueField_okWord]
    have := frameLen_lt u.npix
    rw [BitVec.toNat_ofNat, Nat.mod_eq_of_lt (by omega)]
  · exact (unchangedBut_setFrame_setCache u _ _ _).setResponse _

/-- The frame of a painted buffer is made under the ceilings from before (R205). -/
theorem Painted.frameOf_eq {buffer : List Color} {s u : State} (h : Painted 0 buffer s u)
    (hlen : s.npix.toNat = buffer.length) :
    frameOf u = encodeFrame buffer (rampTable s.cfg (normalizeCeil s.ceilR)) (rampTable s.cfg (normalizeCeil s.ceilG))
      (rampTable s.cfg (normalizeCeil s.ceilB)) := by
  have hR : u.ceilR = s.ceilR := h.unchanged.same .ceilR
  have hG : u.ceilG = s.ceilG := h.unchanged.same .ceilG
  have hB : u.ceilB = s.ceilB := h.unchanged.same .ceilB
  rw [frameOf, h.pixels hlen, h.unchanged.cfg, hR, hG, hB]

theorem Painted.cacheOk {i : Nat} {buffer : List Color} {s u : State} (h : Painted i buffer s u)
    (hc : CacheOk s.cfg s.cache) : CacheOk u.cfg u.cache := by
  have hcache : u.cache = s.cache := h.unchanged.same .cache
  rw [h.unchanged.cfg, hcache]
  exact hc

/-- Settles O59: the ceilings, the painted buffer, its frame, and the read-out, in sequence. -/
theorem encodeCallReturnsTheFrame : Obligations.EncodeCallReturnsTheFrame := by
  unfold Obligations.EncodeCallReturnsTheFrame
  intro s buffer cR cG cB hinv hlen
  obtain ⟨xs, hceilings⟩ := issueAll_setCeilingsCommands s cR cG cB
  obtain ⟨u, ys, hwrites, hpainted⟩ := issueAll_setPixelsCommands (i := 0) (buffer := buffer)
    (s := withCeilings s cR cG cB) hinv.pixels.canonical (by rw [Nat.zero_add]; exact hlen.ge)
  obtain ⟨t, x, hencode, hx, hframe, ht⟩ :=
    issueAll_encode (issueAll_append hceilings hwrites) (hpainted.cacheOk hinv.cache)
  obtain ⟨y, hread⟩ := readOutAfter_outlen hencode (by rw [lastValue_concat, hx])
  rw [hframe.bytes, hpainted.frameOf_eq hlen] at hread
  have hv := ht.setResponse y
  refine ⟨_, hread, samePart_trans (hpainted.unchanged.same .ceilR) (hv.same .ceilR),
    samePart_trans (hpainted.unchanged.same .ceilG) (hv.same .ceilG),
    samePart_trans (hpainted.unchanged.same .ceilB) (hv.same .ceilB), hv.pixels.trans (hpainted.pixels hlen), ?_⟩
  exact ((unchangedBut_withCeilings s cR cG cB).mono (by simp)).trans
    ((hpainted.unchanged.mono (by simp)).trans (hv.mono (by simp)))

/-- Settles O60: the cleared store, the painted buffer, its frame, `RDREG 4`, and the read-out, in sequence. -/
theorem tickReturnsTheFrame : Obligations.TickReturnsTheFrame := by
  unfold Obligations.TickReturnsTheFrame
  intro s buffer hinv hlen
  have hclear : UnchangedBut [.pix] s (respondOk (clearPixels s) 0 noHits) :=
    (unchangedBut_pix s blackStore).setResponse _
  obtain ⟨u, ys, hwrites, hpainted⟩ := issueAll_writePixelCommands (i := 0) (buffer := buffer)
    (s := respondOk (clearPixels s) 0 noHits) rfl (by rw [Nat.zero_add]; exact hlen.ge) fun p _ => pixelAt_blackStore p
  obtain ⟨t, x, hencode, _, hframe, ht⟩ :=
    issueAll_encode (issueAll_cons (issue_clrpix s) hwrites) (hpainted.cacheOk hinv.cache)
  obtain ⟨y, hread⟩ := readOutAfter_outlen (issueAll_append hencode (issueAll_single (issue_rdreg_outlen t)))
    (by rw [lastValue_concat]; exact toNat_valueField_outlen t noHits)
  rw [respondOk_outlen, respondOk_out, hframe.bytes, hpainted.frameOf_eq hlen] at hread
  have hv := ht.setResponse y
  refine ⟨_, hread, hv.pixels.trans (hpainted.pixels hlen), ?_⟩
  exact (hclear.mono (by simp)).trans ((hpainted.unchanged.mono (by simp)).trans (hv.mono (by simp)))

end Sys2Proof.Machine
end

section
/-! PROOFS. The host's pattern engine (O46 to O51, O56): one equation or inversion per variant, what `rotateInto` and
`tileInto` leave at an index, and the child a Cycle selects. -/

namespace Sys2Proof.Machine

/-! ## The buffers that Rotate and TiledRepeat leave -/

/-- Writes at the indices `f i` keep the length. -/
theorem length_foldl_set (f : Nat → Nat) (v : Nat → Color) (is : List Nat) (b : List Color) :
    (is.foldl (fun b i => b.set (f i) (v i)) b).length = b.length := by
  induction is generalizing b with
  | nil => rfl
  | cons i is ih => exact (ih _).trans List.length_set

/-- An index that only `i` is sent to holds what `i` wrote, whatever was written before or after. -/
theorem getElem?_foldl_set {f : Nat → Nat} {is : List Nat} {b : List Color} {i : Nat} (v : Nat → Color) (hi : i ∈ is)
    (honly : ∀ j ∈ is, f j = f i → j = i) (hlt : f i < b.length) :
    (is.foldl (fun b j => b.set (f j) (v j)) b)[f i]? = some (v i) := by
  induction is using List.reverseRecOn with
  | nil => cases hi
  | append_singleton is j ih =>
    rw [List.foldl_append, List.foldl_cons, List.foldl_nil]
    by_cases hj : f j = f i
    · obtain rfl := honly j (by simp) hj
      rw [List.getElem?_set_self (by rw [length_foldl_set]; exact hlt)]
    · rw [List.getElem?_set_ne hj]
      have hmem : i ∈ is := by
        rcases List.mem_append.mp hi with h | h
        · exact h
        · exact absurd (congrArg f (List.mem_singleton.mp h).symm) hj
      exact ih hmem fun k hk => honly k (List.mem_append_left _ hk)

@[simp] theorem length_rotateInto (scratch buffer : List Color) (offset : Nat) :
    (rotateInto scratch buffer offset).length = buffer.length := length_foldl_set _ _ _ _

/-- Two positions of a buffer are not shifted to the same place (R127). -/
theorem eq_of_shift_mod_eq {i j offset n : Nat} (hi : i < n) (hj : j < n) (h : (i + offset) % n = (j + offset) % n) :
    i = j := (Nat.ModEq.add_right_cancel' offset h).eq_of_lt_of_lt hi hj

/-- The scratch pixel `i` stands at `(i + offset) mod length` (R127). -/
theorem getElem?_rotateInto {scratch buffer : List Color} (hlen : scratch.length = buffer.length) (offset : Nat)
    {i : Nat} (hi : i < buffer.length) :
    (rotateInto scratch buffer offset)[(i + offset) % buffer.length]? = scratch[i]? := by
  have hwritten := getElem?_foldl_set (f := fun i => (i + offset) % buffer.length) (b := buffer)
    (fun i => scratch.getD i Color.black) (List.mem_range.mpr hi)
    (fun j hj => eq_of_shift_mod_eq (List.mem_range.mp hj) hi) (Nat.mod_lt _ (by omega))
  rw [rotateInto, hwritten, List.getD_eq_getElem _ _ (hlen ▸ hi), List.getElem?_eq_getElem]

@[simp] theorem tileInto_nil (buffer : List Color) : tileInto [] buffer = buffer := rfl

@[simp] theorem length_tileInto (source buffer : List Color) : (tileInto source buffer).length = buffer.length := by
  unfold tileInto
  split
  · rfl
  · rw [List.length_map, List.length_range]

/-- Position `i` holds the fragment's element `i mod srcLen` (R126). -/
theorem getElem?_tileInto {source buffer : List Color} (hs : source ≠ []) {i : Nat} (hi : i < buffer.length) :
    (tileInto source buffer)[i]? = source[i % source.length]? := by
  have hpos : 0 < source.length := List.length_pos_iff.mpr hs
  have hmod : i % source.length < source.length := Nat.mod_lt _ hpos
  rw [tileInto, if_neg hpos.ne', List.getElem?_map, List.getElem?_range hi, Option.map_some,
    List.getD_eq_getElem _ _ hmod, List.getElem?_eq_getElem hmod]

/-! ## The child of a Cycle -/

theorem exists_childAt_of_lt {ps : PatternList} {n : Nat} (h : n < childCount ps) : ∃ p, childAt ps n = some p := by
  induction ps, n using childAt.induct with
  | case1 n => exact absurd h (Nat.not_lt_zero n)
  | case2 p ps => exact ⟨p, rfl⟩
  | case3 p ps n ih => exact ih (Nat.lt_of_succ_lt_succ h)

/-- Rendering the child with an index is rendering that child (R128). -/
theorem renderChild_of_childAt {ps : PatternList} {n : Nat} {p : Pattern} (h : childAt ps n = some p) (ms : BitVec 32)
    (buffer : List Color) : renderChild ps n ms buffer = render p ms buffer := by
  induction ps, n using childAt.induct with
  | case1 n => cases h
  | case2 q ps =>
    obtain rfl := Option.some.inj h
    rw [renderChild]
  | case3 q ps n ih =>
    rw [renderChild]
    exact ih h

/-! ## What each variant renders -/

theorem render_solid (c : Color) (ms : BitVec 32) (buffer : List Color) :
    render (.solid c) ms buffer = .ok (buffer.map fun _ => c, .solid c) := by rw [render]

theorem render_spectrum (ms : BitVec 32) (buffer : List Color) :
    render .spectrum ms buffer =
      .ok ((List.range buffer.length).map fun i => spectrumColor (spectrumWavelength i buffer.length), .spectrum) := by
  rw [render]

theorem render_tiledRepeat (source : List Color) (ms : BitVec 32) (buffer : List Color) :
    render (.tiledRepeat source) ms buffer = .ok (tileInto source buffer, .tiledRepeat source) := by rw [render]

/-- Rotate over a child that renders (R127). -/
theorem render_rotate_of_ok {child : Pattern} {ms : BitVec 32} {buffer scratch : List Color} {d : Description}
    (h : render child ms (clearBuffer buffer.length) = .ok (scratch, d)) (period : Nat) :
    render (.rotate child period) ms buffer =
      .ok (rotateInto scratch buffer (rotateOffset ms.toNat period buffer.length), .rotate d) := by
  rw [render, h]

/-- Rotate renders only what its child's scratch buffer gives (R127). -/
theorem render_rotate_eq_ok {child : Pattern} {period : Nat} {ms : BitVec 32} {buffer out : List Color}
    {d : Description} (h : render (.rotate child period) ms buffer = .ok (out, d)) :
    ∃ scratch, out = rotateInto scratch buffer (rotateOffset ms.toNat period buffer.length) := by
  rw [render] at h
  cases hc : render child ms (clearBuffer buffer.length) with
  | error e => rw [hc] at h; cases h
  | ok r =>
    rw [hc] at h
    cases h
    exact ⟨r.1, rfl⟩

/-- An empty Cycle (R128). -/
theorem render_cycle_of_empty {children : PatternList} (h : childCount children = 0) (duration : Nat) (ms : BitVec 32)
    (buffer : List Color) : render (.cycle children duration) ms buffer = .ok (buffer, .emptyCycle) := by
  rw [render, if_pos h]

/-- A Cycle with children and a duration (R128). -/
theorem render_cycle_of_children {children : PatternList} {duration : Nat} (h : childCount children ≠ 0)
    (hd : duration ≠ 0) (ms : BitVec 32) (buffer : List Color) :
    render (.cycle children duration) ms buffer =
      renderChild children (cycleIndex ms.toNat duration (childCount children)) ms buffer := by
  rw [render, if_neg h, if_neg hd]

/-- A Cycle with children and no duration is refused (R128, U8; log 16). -/
theorem render_cycle_of_zero {children : PatternList} (h : childCount children ≠ 0) (ms : BitVec 32)
    (buffer : List Color) : render (.cycle children 0) ms buffer = .error .zeroCycleDuration := by
  rw [render, if_neg h, if_pos rfl]

/-! ## The length -/

mutual

/-- A tree that renders keeps the length: a Rotate by what it places, a Cycle by its child (R121). -/
theorem length_of_render : ∀ (p : Pattern) {ms : BitVec 32} {buffer out : List Color} {d : Description},
    render p ms buffer = .ok (out, d) → out.length = buffer.length
  | .solid c, ms, buffer, out, d, h => by
    cases (render_solid c ms buffer).symm.trans h
    exact List.length_map _
  | .spectrum, ms, buffer, out, d, h => by
    cases (render_spectrum ms buffer).symm.trans h
    rw [List.length_map, List.length_range]
  | .tiledRepeat source, ms, buffer, out, d, h => by
    cases (render_tiledRepeat source ms buffer).symm.trans h
    exact length_tileInto source buffer
  | .rotate child period, ms, buffer, out, d, h => by
    obtain ⟨scratch, rfl⟩ := render_rotate_eq_ok h
    exact length_rotateInto scratch buffer _
  | .cycle children duration, ms, buffer, out, d, h => by
    by_cases hn : childCount children = 0
    · cases (render_cycle_of_empty hn duration ms buffer).symm.trans h
      rfl
    · by_cases hd : duration = 0
      · subst hd
        cases (render_cycle_of_zero hn ms buffer).symm.trans h
      · exact length_of_renderChild children _ ((render_cycle_of_children hn hd ms buffer).symm.trans h)

theorem length_of_renderChild : ∀ (ps : PatternList) (n : Nat) {ms : BitVec 32} {buffer out : List Color}
    {d : Description}, renderChild ps n ms buffer = .ok (out, d) → out.length = buffer.length
  | .nil, n, ms, buffer, out, d, h => by
    rw [renderChild] at h
    cases h
    rfl
  | .cons p ps, 0, ms, buffer, out, d, h => length_of_render p (by rwa [renderChild] at h)
  | .cons p ps, n + 1, ms, buffer, out, d, h => length_of_renderChild ps n (by rwa [renderChild] at h)

end

/-- Settles O46: by induction on the tree. -/
theorem renderKeepsTheLength : Obligations.RenderKeepsTheLength := by
  unfold Obligations.RenderKeepsTheLength
  exact fun p _ _ _ _ h => length_of_render p h

/-- Settles O47: a constant map of the buffer. -/
theorem solidFillsTheBuffer : Obligations.SolidFillsTheBuffer := by
  unfold Obligations.SolidFillsTheBuffer
  intro c ms buffer
  rw [render_solid, List.map_const']

/-! ## Spectrum -/

/-- `401*i/length` is below 401, so the wavelength fits its 16 bits and stays below 781 (R125). -/
theorem spectrumWavelength_bounds {i length : Nat} (hi : i < length) :
    (spectrumWavelength i length).toNat = 380 + 401 * i / length ∧ 380 ≤ (spectrumWavelength i length).toNat ∧
      (spectrumWavelength i length).toNat < 781 := by
  have hlt : 401 * i / length < 401 := Nat.div_lt_of_lt_mul (by omega)
  rw [spectrumWavelength, BitVec.toNat_ofNat, Nat.mod_eq_of_lt (by omega)]
  exact ⟨rfl, Nat.le_add_right .., Nat.add_lt_add_left hlt 380⟩

/-- Outside the visible range there is no colour (R125). -/
theorem spectrumColor_of_outside {w : Half} (h : w.toNat < 380 ∨ 781 ≤ w.toNat) : spectrumColor w = Color.black :=
  if_pos h

/-- Settles O48: the map over the positions, each with its own wavelength. -/
theorem spectrumColoursEveryPosition : Obligations.SpectrumColoursEveryPosition := by
  unfold Obligations.SpectrumColoursEveryPosition
  refine ⟨fun ms buffer => ⟨_, render_spectrum ms buffer, by simp, fun i hi => ?_⟩, fun w => spectrumColor_of_outside⟩
  obtain ⟨hw, hlow, hhigh⟩ := spectrumWavelength_bounds hi
  refine ⟨spectrumWavelength i buffer.length, hw, hlow, hhigh, ?_⟩
  rw [List.getElem?_map, List.getElem?_range hi, Option.map_some]

/-- Settles O49: the index is below the number of children, so there is such a child, and the Cycle is that child. -/
theorem cycleDelegatesToOneChild : Obligations.CycleDelegatesToOneChild := by
  unfold Obligations.CycleDelegatesToOneChild
  refine fun children duration ms buffer => ⟨fun h => render_cycle_of_empty h duration ms buffer, fun h hd => ?_⟩
  obtain ⟨p, hp⟩ := exists_childAt_of_lt (Nat.mod_lt (ms.toNat / duration) (Nat.pos_of_ne_zero h))
  exact ⟨p, hp, (render_cycle_of_children h hd ms buffer).trans (renderChild_of_childAt hp ms buffer)⟩

/-- Settles O50: the scratch buffer has the buffer's length, and the shift sends its positions to different places. -/
theorem rotatePlacesTheChildsPixels : Obligations.RotatePlacesTheChildsPixels := by
  unfold Obligations.RotatePlacesTheChildsPixels
  intro child period ms buffer scratch d h
  have hlen : scratch.length = buffer.length := (length_of_render child h).trans List.length_replicate
  exact ⟨_, render_rotate_of_ok h period, length_rotateInto scratch buffer _,
    fun i hi => getElem?_rotateInto hlen (rotateOffset ms.toNat period buffer.length) hi⟩

/-- Settles O51: the fragment's element at each position, or the buffer itself. -/
theorem tiledRepeatTilesTheBuffer : Obligations.TiledRepeatTilesTheBuffer := by
  unfold Obligations.TiledRepeatTilesTheBuffer
  refine fun source buffer ms => ⟨_, render_tiledRepeat source ms buffer, ?_, fun i hi hs => getElem?_tileInto hs hi⟩
  rintro rfl
  exact tileInto_nil buffer

/-- The text a render reports is its description's (R122, R129). -/
theorem renderText_of_ok {p : Pattern} {ms : BitVec 32} {buffer out : List Color} {d : Description}
    (h : render p ms buffer = .ok (out, d)) : renderText p ms buffer = .ok (out, descriptionText d) := by
  rw [renderText, h]

/-- Settles O56: the two descriptions, and their texts character by character. -/
theorem descriptionsGivenByTheSource : Obligations.DescriptionsGivenByTheSource := by
  unfold Obligations.DescriptionsGivenByTheSource
  refine fun ms buffer duration period => ⟨⟨_, renderText_of_ok (render_cycle_of_empty rfl duration ms buffer), ?_⟩,
    _, _, renderText_of_ok (render_rotate_of_ok (render_spectrum ms _) period), ?_⟩ <;> decide

end Sys2Proof.Machine
end

section
/-! PROOFS. A tick's commands standing at the port (O53): no command reads the port, so taking waiting commands one by
one is issuing them, and every command of a tick is accepted as long as `NPIX` is the length of the buffer. -/

namespace Sys2Proof.Machine

/-! ## Commands that wait at the port -/

/-- A command does the same whatever waits behind it (R70). -/
theorem exec_withPort (i : Instr) (s : State) (rest : List PortEvent) :
    exec i { s with port := rest } = andThen (exec i s) fun t => .next { t with port := rest } := by
  cases i with
  | setn n =>
    have hfits : countFits { s with port := rest } n = countFits s n := rfl
    simp only [exec, execSetn, hfits]
    cases countFits s n <;> rfl
  | setceil ch c =>
    rcases setCeiling_cases s ch c with ⟨rfl, _⟩ | ⟨rfl, _⟩ | ⟨rfl, _⟩ | ⟨rfl, _⟩ <;> rfl
  | wpix p r g b =>
    have hindex : pixelIndex { s with port := rest } p = pixelIndex s p := rfl
    simp only [exec, execWpix, hindex]
    cases pixelIndex s p <;> rfl
  | rdout j =>
    have hbyte : frameByte { s with port := rest } j = frameByte s j := rfl
    simp only [exec, execRdout, hbyte]
    cases frameByte s j <;> rfl
  | rdreg num =>
    have hreg : readRegister { s with port := rest } num = readRegister s num := rfl
    simp only [exec, execRdreg, hreg]
    cases readRegister s num <;> rfl
  | clrpix | ramp _ _ | lookup _ _ | encode => rfl
  | wireStart | wireLedB1 _ _ _ | wireLedB2 _ _ _ | wireLedB4 _ _ _ | wireLedB31 _ _ _ | wireEnd => rfl

theorem exec_withPort_of_next {i : Instr} {s t : State} (h : exec i s = .next t) (rest : List PortEvent) :
    exec i { s with port := rest } = .next { t with port := rest } := by
  rw [exec_withPort, h, andThen_next]

/-- Taking commands from the port is issuing them one after the other (R70). -/
theorem runSteps_commandEvents {is : List Instr} (hcmd : ∀ i ∈ is, i.wf = true ∧ i.isCommand = true) (s : State) :
    ∃ t xs, issueAll is s = .next (t, xs) ∧
      ∀ rest, runSteps is.length { s with port := commandEvents is ++ rest } = .next { t with port := rest } := by
  induction is generalizing s with
  | nil => exact ⟨s, [], rfl, fun _ => rfl⟩
  | cons i is ih =>
    obtain ⟨⟨hwf, hi⟩, his⟩ := List.forall_mem_cons.mp hcmd
    obtain ⟨t, ht⟩ := exec_next i s
    obtain ⟨u, xs, hu, hrun⟩ := ih his t
    refine ⟨u, _, issueAll_cons ((issue_command hwf hi s).trans ht) hu, fun rest => ?_⟩
    exact (runSteps_command (s := { s with port := commandEvents (i :: is) ++ rest }) hwf hi rfl
      (exec_withPort_of_next ht _) is.length).trans (hrun rest)

/-! ## Commands that are accepted -/

/-- With `NPIX` = `n` the command is accepted, whatever the rest of the state, and leaves `NPIX`. -/
structure AcceptedAt (n : Half) (i : Instr) : Prop where
  wf : i.wf = true
  command : i.isCommand = true
  accepted : ∀ s : State, s.npix = n → ∃ u v f, exec i s = .next (respondOk u v f) ∧ u.npix = n ∧ u.port = s.port

theorem acceptedAt_clrpix (n : Half) : AcceptedAt n .clrpix :=
  ⟨rfl, rfl, fun _ hn => ⟨_, _, _, rfl, hn, rfl⟩⟩

theorem acceptedAt_encode (n : Half) : AcceptedAt n .encode :=
  ⟨rfl, rfl, fun _ hn => ⟨_, _, _, rfl, hn, rfl⟩⟩

/-- A `WPIX` to a pixel that exists (R222). -/
theorem acceptedAt_wpix {n : Half} {p : Nat} (hp : p < n.toNat) (c : Color) :
    AcceptedAt n (.wpix (BitVec.ofNat 16 p) c.r c.g c.b) := by
  refine ⟨rfl, rfl, fun s hn => ⟨setPixel s p c, 0, noHits, ?_, hn, rfl⟩⟩
  exact (issue_command rfl rfl s).symm.trans (issue_wpix (hn ▸ hp) c)

/-- The `WPIX` commands of a tick are for positions of the buffer (R134). -/
theorem mem_writePixelCommands {i : Instr} {k : Nat} {buffer : List Color} (h : i ∈ writePixelCommands k buffer) :
    ∃ (p : Nat) (c : Color), p < k + buffer.length ∧ i = .wpix (BitVec.ofNat 16 p) c.r c.g c.b := by
  induction buffer generalizing k with
  | nil => cases h
  | cons c cs ih =>
    have later (h : i ∈ writePixelCommands (k + 1) cs) :
        ∃ (p : Nat) (c' : Color), p < k + (c :: cs).length ∧ i = .wpix (BitVec.ofNat 16 p) c'.r c'.g c'.b := by
      obtain ⟨p, c', hp, hi⟩ := ih h
      exact ⟨p, c', by rw [List.length_cons]; omega, hi⟩
    rw [writePixelCommands] at h
    split at h
    · exact later h
    · rcases List.mem_cons.mp h with rfl | h
      · exact ⟨k, c, by rw [List.length_cons]; omega, rfl⟩
      · exact later h

theorem acceptedAt_of_mem_paintCommands {n : Half} {buffer : List Color} (hlen : n.toNat = buffer.length) {i : Instr}
    (h : i ∈ paintCommands buffer) : AcceptedAt n i := by
  simp only [paintCommands, List.mem_append, List.mem_cons, List.not_mem_nil, or_false] at h
  rcases h with (rfl | h) | rfl
  · exact acceptedAt_clrpix n
  · obtain ⟨p, c, hp, rfl⟩ := mem_writePixelCommands h
    exact acceptedAt_wpix (by omega) c
  · exact acceptedAt_encode n

/-- Accepted commands that wait at the port are each answered with `ERR` = 0 (R96). -/
theorem runSteps_accepted {n : Half} {is : List Instr} (h : ∀ i ∈ is, AcceptedAt n i) {s : State}
    {rest : List PortEvent} (hn : s.npix = n) (hp : s.port = commandEvents is ++ rest) {k : Nat} (hk : k < is.length) :
    ∃ u x, runSteps (k + 1) s = .next u ∧ u.response = some x ∧ errBit x = false := by
  induction is generalizing s k with
  | nil => cases hk
  | cons i is ih =>
    obtain ⟨hi, his⟩ := List.forall_mem_cons.mp h
    obtain ⟨u, v, f, hu, hnu, hpu⟩ := hi.accepted { s with port := commandEvents is ++ rest } hn
    have hstep := runSteps_command hi.wf hi.command hp hu k
    cases k with
    | zero => exact ⟨_, okWord v f, hstep, rfl, errBit_responseWord ..⟩
    | succ k =>
      rw [hstep]
      exact ih (s := respondOk u v f) his hnu hpu (Nat.lt_of_succ_lt_succ hk)

/-! ## A tick up to `ENCODE` -/

/-- The bytes below `OUTLEN` are the frame held, position by position (R35). -/
theorem HoldsFrame.getElem? {s : State} {frame : List Byte} (h : HoldsFrame s frame) {j : Nat} (hj : j < frame.length) :
    frame[j]? = some (memRead s.out j) := by
  rw [← h.bytes, List.getElem?_map, List.getElem?_range (h.outlen ▸ hj), Option.map_some]

/-- The commands of a tick up to `ENCODE` leave the buffer in the pixels and its frame in `OUT` (R134 (1) to (3)). -/
theorem issueAll_paintCommands {s : State} {buffer : List Color} (hc : CacheOk s.cfg s.cache)
    (hlen : s.npix.toNat = buffer.length) :
    ∃ t xs, issueAll (paintCommands buffer) s = .next (t, xs) ∧ t.pixels = buffer ∧
      HoldsFrame t (encodeFrame buffer (rampTable s.cfg (normalizeCeil s.ceilR))
        (rampTable s.cfg (normalizeCeil s.ceilG)) (rampTable s.cfg (normalizeCeil s.ceilB))) ∧
      UnchangedBut [.pix, .cache, .out, .outlen] s t := by
  have hclear : UnchangedBut [.pix] s (respondOk (clearPixels s) 0 noHits) :=
    (unchangedBut_pix s blackStore).setResponse _
  obtain ⟨u, ys, hwrites, hpainted⟩ := issueAll_writePixelCommands (i := 0) (buffer := buffer)
    (s := respondOk (clearPixels s) 0 noHits) rfl (by rw [Nat.zero_add]; exact hlen.ge) fun p _ => pixelAt_blackStore p
  obtain ⟨t, x, hencode, _, hframe, ht⟩ :=
    issueAll_encode (issueAll_cons (issue_clrpix s) hwrites) (hpainted.cacheOk hc)
  rw [hpainted.frameOf_eq hlen] at hframe
  exact ⟨t, _, hencode, ht.pixels.trans (hpainted.pixels hlen), hframe,
    (hclear.mono (by simp)).trans ((hpainted.unchanged.mono (by simp)).trans (ht.mono (by simp)))⟩

/-- Settles O53: the waiting commands do what issuing them does, and each is accepted. -/
theorem tickEncodesTheRenderedBuffer : Obligations.TickEncodesTheRenderedBuffer := by
  unfold Obligations.TickEncodesTheRenderedBuffer
  intro s buffer rest hinv hlen hport
  have haccepted : ∀ i ∈ paintCommands buffer, AcceptedAt s.npix i := fun i => acceptedAt_of_mem_paintCommands hlen
  obtain ⟨t, xs, hissue, hpixels, hframe, hunchanged⟩ := issueAll_paintCommands hinv.cache hlen
  obtain ⟨t', xs', hissue', hrun⟩ :=
    runSteps_commandEvents (fun i hi => ⟨(haccepted i hi).wf, (haccepted i hi).command⟩) s
  cases hissue.symm.trans hissue'
  have hs : { s with port := commandEvents (paintCommands buffer) ++ rest } = s := by rw [← hport]
  refine ⟨{ t with port := rest }, hs ▸ hrun rest, rfl, hpixels, hunchanged.same .status, ?_,
    fun k hk => runSteps_accepted haccepted rfl hport hk, fun j hj => hframe.getElem? ?_⟩
  · exact hframe.outlen.trans (length_encodeFrame ..)
  · exact hj.trans_eq (length_encodeFrame ..).symm

end Sys2Proof.Machine
end

section
/-! PROOFS. The ramp function (O15, O23 to O27, O54, O57): the facts of R158 about the parts of the cubic region, the two
regions of the curve read as one case split, and what the laws of R156 settle. -/

namespace Sys2Proof.Machine

/-! ## Normalization -/

/-- 0 and every ceiling above `HW_MAX` (R150). -/
theorem normalizeCeil_of_unbounded {c : Half} (h : c = 0 ∨ 0x1EE1 < c) : normalizeCeil c = 0x1EE1 :=
  if_pos h

/-- A ceiling that is set and below `MIN_CEIL` (R150). -/
theorem normalizeCeil_of_lt_minCeil {c : Half} (h0 : c ≠ 0) (h : c < 255) : normalizeCeil c = 255 := by
  have hmax : ¬ 0x1EE1 < c := fun hc => absurd (BitVec.lt_trans hc h) (by decide)
  exact (if_neg (not_or.mpr ⟨h0, hmax⟩)).trans (if_pos h)

@[simp] theorem normalizeCeil_normalizeCeil (c : Half) : normalizeCeil (normalizeCeil c) = normalizeCeil c := by
  obtain ⟨h1, h2⟩ := normalize_range c
  exact normalize_of_key h1 h2

/-- Settles O23: each case of the definition, and that it leaves its own values. -/
theorem normalizeClampsTheCeiling : Obligations.NormalizeClampsTheCeiling := by
  unfold Obligations.NormalizeClampsTheCeiling
  exact ⟨fun _ h => normalizeCeil_of_unbounded (.inl h), fun _ h => normalizeCeil_of_unbounded (.inr h),
    fun _ => normalizeCeil_of_lt_minCeil, fun _ => normalize_of_key, normalizeCeil_normalizeCeil⟩

/-! ## The parts of the cubic region (R158) -/

section
variable {k : Nat} (h1 : 255 ≤ k) (h2 : k ≤ 7905)
include h1 h2

theorem inRange_range : 176 ≤ inRange k ∧ inRange k ≤ 252 := by
  have := linearCut_range h1 h2
  unfold inRange
  omega

theorem outRange_range : 252 ≤ outRange k ∧ outRange k ≤ 7826 := by
  unfold outRange linearCut
  omega

theorem cubeOffset_range : 88 ≤ cubeOffset k ∧ cubeOffset k ≤ 126 := by
  have := inRange_range h1 h2
  unfold cubeOffset
  omega

theorem linearCut_add_inRange : linearCut k + inRange k = 255 := by
  have := linearCut_range h1 h2
  unfold inRange
  omega

theorem linearCut_add_outRange : linearCut k + outRange k = k := by
  have := linearCut_range h1 h2
  unfold outRange
  omega

theorem cubeQuotient_le {l : Nat} (hl : l ≤ 255) : cubeQuotient l k ≤ inRange k * inRange k :=
  cube_quotient_le (inRange_pos h1 h2) (Nat.sub_le_sub_right hl _)

/-- At level 255 the cube is exactly `inR * inR * inR`, and `off` is lost in the division. -/
theorem cubeQuotient_top : cubeQuotient 255 k = inRange k * inRange k := by
  have hd := inRange_pos h1 h2
  have hoff : cubeOffset k / inRange k = 0 := Nat.div_eq_of_lt (Nat.div_lt_self hd (by decide))
  show (inRange k * inRange k * inRange k + cubeOffset k) / inRange k = _
  rw [Nat.mul_assoc, Nat.mul_add_div hd, hoff, Nat.add_zero]

theorem cubeQuotient_linearCut : cubeQuotient (linearCut k) k = 0 := by
  have hoff : cubeOffset k < inRange k := Nat.div_lt_self (inRange_pos h1 h2) (by decide)
  simp [cubeQuotient, hoff]

/-- The region starts where the linear region would end (R158(c)). -/
theorem cubicRamp_linearCut (m : RampRounding) : cubicRamp m (linearCut k) k = linearCut k := by
  have hd := inRange_pos h1 h2
  have hbias := full_scale_div (o := 0) hd (roundingBias_lt m hd)
  rw [Nat.mul_zero] at hbias
  rw [cubicRamp, cubeQuotient_linearCut h1 h2, Nat.zero_mul, hbias, Nat.add_zero]

/-- The region ends at the key (R158(d)). -/
theorem cubicRamp_top (m : RampRounding) : cubicRamp m 255 k = k := by
  have hd := inRange_pos h1 h2
  rw [cubicRamp, cubeQuotient_top h1 h2, full_scale_div hd (roundingBias_lt m hd), linearCut_add_outRange h1 h2]

end

theorem linearCut_le_cubicRamp (m : RampRounding) (l k : Nat) : linearCut k ≤ cubicRamp m l k :=
  Nat.le_add_right _ _

theorem cubicRamp_mono (m : RampRounding) {l l' : Nat} (k : Nat) (h : l ≤ l') : cubicRamp m l k ≤ cubicRamp m l' k := by
  unfold cubicRamp cubeQuotient
  dsimp only
  gcongr

/-- Settles O57: the facts of R158 one by one; the two keys' values just above the cutoff are computed. -/
theorem rampPartsStayInTheirRanges : Obligations.RampPartsStayInTheirRanges := by
  unfold Obligations.RampPartsStayInTheirRanges
  refine ⟨fun m k h1 h2 => ?_, fun m => by cases m <;> decide⟩
  exact ⟨linearCut_range h1 h2, inRange_range h1 h2, outRange_range h1 h2, cubeOffset_range h1 h2,
    linearCut_add_inRange h1 h2, linearCut_add_outRange h1 h2, fun _ => cubeQuotient_le h1 h2, cubeQuotient_top h1 h2,
    cubeQuotient_linearCut h1 h2, roundingBias_lt m (inRange_pos h1 h2), cubicRamp_linearCut h1 h2 m,
    cubicRamp_top h1 h2 m⟩

/-! ## The two regions of the curve -/

/-- Below the cutoff the curve is the identity, level 0 included (R151, R153). -/
theorem rampNat_of_lt_cut (body : RampBody) {l k : Nat} (h : l < linearCut k) : rampNat body l k = l := by
  rcases eq_or_ne l 0 with rfl | h0
  · exact rampNat_zero body k
  · exact rampNat_linear h0 h

section
variable {l k : Nat} (h1 : 255 ≤ k) (h2 : k ≤ 7905)
include h1 h2

/-- From the cutoff on, which is not 0, the curve is the body's cubic region (R154). -/
theorem rampNat_of_cut_le (body : RampBody) (h : linearCut k ≤ l) : rampNat body l k = cubicRegion body l k := by
  obtain ⟨hcut, _⟩ := linearCut_range h1 h2
  exact rampNat_cubic (by omega) (Nat.not_lt.mpr h)

theorem rampNat_formula_of_cut_le (m : RampRounding) (h : linearCut k ≤ l) :
    rampNat (.formula m) l k = cubicRamp m l k :=
  rampNat_of_cut_le h1 h2 (.formula m) h

/-- The formula agrees with the linear region at the cutoff too (R156 (f)). -/
theorem rampNat_formula_of_le_cut (m : RampRounding) (h : l ≤ linearCut k) : rampNat (.formula m) l k = l := by
  rcases h.lt_or_eq with h | rfl
  · exact rampNat_of_lt_cut _ h
  · rw [rampNat_formula_of_cut_le h1 h2 m le_rfl, cubicRamp_linearCut h1 h2]

theorem rampNat_formula_mono (m : RampRounding) {l' : Nat} (h : l ≤ l') :
    rampNat (.formula m) l k ≤ rampNat (.formula m) l' k := by
  rcases Nat.lt_or_ge l' (linearCut k) with hl' | hl'
  · rw [rampNat_of_lt_cut _ hl', rampNat_of_lt_cut _ (h.trans_lt hl')]
    exact h
  · rw [rampNat_formula_of_cut_le h1 h2 m hl']
    rcases Nat.lt_or_ge l (linearCut k) with hl | hl
    · rw [rampNat_of_lt_cut _ hl]
      exact hl.le.trans (linearCut_le_cubicRamp m l' k)
    · rw [rampNat_formula_of_cut_le h1 h2 m hl]
      exact cubicRamp_mono m k h

theorem rampNat_formula_pos (m : RampRounding) (h : 1 ≤ l) : 1 ≤ rampNat (.formula m) l k := by
  obtain ⟨hcut, _⟩ := linearCut_range h1 h2
  rcases Nat.lt_or_ge l (linearCut k) with hl | hl
  · rw [rampNat_of_lt_cut _ hl]
    exact h
  · rw [rampNat_formula_of_cut_le h1 h2 m hl]
    exact (by omega : 1 ≤ linearCut k).trans (linearCut_le_cubicRamp m l k)

theorem rampNat_formula_top (m : RampRounding) : rampNat (.formula m) 255 k = k := by
  obtain ⟨_, hcut⟩ := linearCut_range h1 h2
  rw [rampNat_formula_of_cut_le h1 h2 m (by omega), cubicRamp_top h1 h2]

end

/-! ## The ramp and its laws -/

@[simp] theorem ramp_zero (cfg : Config) (c : Half) : ramp cfg 0 c = 0 := rfl

/-- The ceiling matters through its key alone (R150, R155). -/
theorem ramp_congr_ceil (cfg : Config) (l : Byte) {c d : Half} (h : normalizeCeil c = normalizeCeil d) :
    ramp cfg l c = ramp cfg l d := by
  rw [ramp, h, ramp]

/-- Settles O24: below the cutoff the curve is the identity, whatever the body. -/
theorem rampIsBlackThenLinear : Obligations.RampIsBlackThenLinear := by
  unfold Obligations.RampIsBlackThenLinear
  intro cfg l c
  obtain ⟨h1, h2⟩ := normalize_range c
  obtain ⟨hmin, hmax⟩ := linearCut_range h1 h2
  refine ⟨hmin, hmax, ?_, fun _ hl => ?_⟩
  · rintro rfl
    exact ramp_zero cfg c
  · rw [ramp_toNat]
    exact rampNat_of_lt_cut cfg.rampBody hl

/-- Settles O25: from the cutoff on the curve is the cubic region, and the u16 keeps it. -/
theorem rampFollowsTheCubicFormula : Obligations.RampFollowsTheCubicFormula := by
  unfold Obligations.RampFollowsTheCubicFormula
  intro cfg l c hbody hl
  obtain ⟨h1, h2⟩ := normalize_range c
  rw [ramp_toNat, hbody]
  exact rampNat_formula_of_cut_le h1 h2 .offSquared hl

/-- Settles O26: each law is the curve's at the ceiling's key. -/
theorem rampSatisfiesItsLaws : Obligations.RampSatisfiesItsLaws := by
  unfold Obligations.RampSatisfiesItsLaws
  intro cfg m hbody
  have hval : ∀ l c, (ramp cfg l c).toNat = rampNat (.formula m) l.toNat (normalizeCeil c).toNat := fun l c => by
    rw [ramp_toNat, hbody]
  have hkey : ∀ (l : Byte) c, (ramp cfg l c).toNat ≤ (normalizeCeil c).toNat := fun l c => by
    obtain ⟨h1, h2⟩ := normalize_range c
    rw [hval]
    exact rampNat_le_key m h1 h2 (Nat.le_of_lt_succ l.isLt)
  exact
    { black := ramp_zero cfg
      monotone := fun c l l' h => by
        obtain ⟨h1, h2⟩ := normalize_range c
        rw [BitVec.le_def, hval, hval]
        exact rampNat_formula_mono h1 h2 m h
      bounded := hkey
      zeroCeiling := fun l => ramp_congr_ceil cfg l rfl
      normalized := fun l c => ramp_congr_ceil cfg l (normalizeCeil_normalizeCeil c).symm
      top := fun c => by
        obtain ⟨h1, h2⟩ := normalize_range c
        exact BitVec.eq_of_toNat_eq ((hval 255 c).trans (rampNat_formula_top h1 h2 m))
      linear := fun l c _ hl => by
        obtain ⟨h1, h2⟩ := normalize_range c
        rw [hval]
        exact rampNat_formula_of_le_cut h1 h2 m hl
      onlyZeroBlack := fun l c hl => by
        obtain ⟨h1, h2⟩ := normalize_range c
        rw [hval]
        exact rampNat_formula_pos h1 h2 m hl
      hardwareMax := fun l c => by
        obtain ⟨_, h2⟩ := normalize_range c
        exact (hkey l c).trans h2 }

/-- Up to the cutoff the laws settle a ramp: black and the linear region (R156 (a), (f)). -/
theorem RampLaws.toNat_of_le_cut {f : Byte → Half → Half} (hf : RampLaws f) {l : Byte} {c : Half}
    (h : l.toNat ≤ linearCut (normalizeCeil c).toNat) : (f l c).toNat = l.toNat := by
  rcases eq_or_ne l 0 with rfl | h0
  · rw [hf.black]
    rfl
  · have hpos : l.toNat ≠ 0 := fun hl => h0 (BitVec.eq_of_toNat_eq hl)
    exact hf.linear l c (Nat.one_le_iff_ne_zero.mpr hpos) h

/-- Settles O54: below the cutoff the laws settle the value, from there on it is read from the table of the key. -/
theorem everyLawfulRampIsExpressible : Obligations.EveryLawfulRampIsExpressible := by
  unfold Obligations.EveryLawfulRampIsExpressible
  intro f cap hf l c
  obtain ⟨h1, h2⟩ := normalize_range c
  apply BitVec.eq_of_toNat_eq
  rw [ramp_toNat]
  rcases Nat.lt_or_ge l.toNat (linearCut (normalizeCeil c).toNat) with hl | hl
  · rw [rampNat_of_lt_cut _ hl, hf.toNat_of_le_cut hl.le]
  · rw [rampNat_of_cut_le h1 h2 _ hl, tabulatedRamp_tabulate f l h1 h2, ← hf.normalized]

/-! ## The command -/

/-- A word with a row's `op` and a must-be-zero bit that is 1 is reserved (R94(b)). -/
theorem decode_pack_of_not_zeroBits {o : Opcode} {a : Byte} {h : Half} {w : Word} (hz : ¬ ZeroBits o a h w) :
    decode (pack (opByte o) a h w) = .error .reservedField := by
  rw [decode_of_row (opField_pack _ _ _ _), if_neg (mt (pack_matches_iff o a h w).mp hz)]

/-- `RAMP`'s one must-be-zero field is `w` (R93). -/
theorem decode_pack_ramp (l : Byte) (c : Half) (w : Word) :
    decode (pack 0x10 l c w) = if w = 0 then .ok (.ramp l c) else .error .reservedField := by
  split
  · next h =>
    subst h
    exact decode_encode (i := .ramp l c) rfl rfl
  · next h => exact decode_pack_of_not_zeroBits (o := .ramp) h

theorem exec_ramp (l : Byte) (c : Half) (s : State) :
    exec (.ramp l c) s = .next (respondOk s ((ramp s.cfg l c).setWidth 32) noHits) := rfl

theorem exec_ramp_congr_ceil (l : Byte) {c d : Half} (h : normalizeCeil c = normalizeCeil d) (s : State) :
    exec (.ramp l c) s = exec (.ramp l d) s := by
  rw [exec_ramp, exec_ramp, ramp_congr_ceil s.cfg l h]

/-- Settles O15: the command is one response, which holds the whole u16, and two ceilings with one key answer alike. -/
theorem rampAnswersTheCurveAndWritesNothing : Obligations.RampAnswersTheCurveAndWritesNothing := by
  unfold Obligations.RampAnswersTheCurveAndWritesNothing
  intro l c s
  refine ⟨decode_pack_ramp l c, _, _, exec_ramp l c s, rfl, BitVec.toNat_setWidth_of_le (by decide),
    unchangedBut_response s _, ?_, fun h => ?_, fun h0 h => ?_⟩
  · rintro rfl
    rw [ramp_zero]
    rfl
  · exact exec_ramp_congr_ceil l (normalizeCeil_of_unbounded h) s
  · exact exec_ramp_congr_ceil l (normalizeCeil_of_lt_minCeil h0 h) s

end Sys2Proof.Machine
end

section
/-! PROOFS. The ramp in 32-bit arithmetic (O27): each part of the wrapping formula, under a name of its own, is the exact
part, because what it is computed from stays in the ranges of R158. -/

namespace Sys2Proof.Machine

/-! ## The wrapping parts -/

/-- `cut` in 32 bits (R152). -/
def linearCut32 (k : BitVec 32) : BitVec 32 := (k + 50) / 100

/-- `inR` in 32 bits (R154). -/
def inRange32 (k : BitVec 32) : BitVec 32 := 255 - linearCut32 k

/-- `outR` in 32 bits (R154). -/
def outRange32 (k : BitVec 32) : BitVec 32 := k - linearCut32 k

/-- `y` in 32 bits (R154). -/
def cubeQuotient32 (l k : BitVec 32) : BitVec 32 :=
  let x := l - linearCut32 k
  (x * x * x + inRange32 k / 2) / inRange32 k

/-- The bias in 32 bits (R154, D10). -/
def roundingBias32 (m : RampRounding) (inR : BitVec 32) : BitVec 32 :=
  match m with
  | .offSquared => (inR / 2) * (inR / 2)
  | .truncate => 0
  | .halfUp => inR * inR / 2

/-- What is divided by `inR` twice, in 32 bits: the largest intermediate (R154, R159). -/
def scaledCube32 (m : RampRounding) (l k : BitVec 32) : BitVec 32 :=
  cubeQuotient32 l k * outRange32 k + roundingBias32 m (inRange32 k)

theorem cubicRamp32_eq_parts (m : RampRounding) (l k : BitVec 32) :
    cubicRamp32 m l k = linearCut32 k + scaledCube32 m l k / inRange32 k / inRange32 k := by
  cases m <;> rfl

/-! ## No part wraps -/

/-- A square of a number up to 252 fits, so no reading of the rounding wraps. -/
theorem toNat_roundingBias32 (m : RampRounding) {inR : BitVec 32} (h : inR.toNat ≤ 252) :
    (roundingBias32 m inR).toNat = roundingBias m inR.toNat := by
  have hhalf : (inR / 2).toNat = inR.toNat / 2 := BitVec.toNat_udiv
  cases m with
  | offSquared =>
    have hle : inR.toNat / 2 ≤ 126 := by omega
    have hsq : inR.toNat / 2 * (inR.toNat / 2) ≤ 126 * 126 := Nat.mul_le_mul hle hle
    rw [roundingBias32, BitVec.toNat_mul_of_lt (by rw [hhalf]; omega), hhalf, roundingBias]
  | truncate => rfl
  | halfUp =>
    have hsq : inR.toNat * inR.toNat ≤ 252 * 252 := Nat.mul_le_mul h h
    rw [roundingBias32, BitVec.toNat_udiv, BitVec.toNat_mul_of_lt (by omega), roundingBias]
    rfl

/-- A cube of a number up to 252 fits with the offset. -/
theorem toNat_cube_quotient {x inR : BitVec 32} (hx : x.toNat ≤ 252) (h : inR.toNat ≤ 252) :
    ((x * x * x + inR / 2) / inR).toNat = (x.toNat * x.toNat * x.toNat + inR.toNat / 2) / inR.toNat := by
  have hhalf : (inR / 2).toNat = inR.toNat / 2 := BitVec.toNat_udiv
  have hsq : x.toNat * x.toNat ≤ 252 * 252 := Nat.mul_le_mul hx hx
  have hcube : x.toNat * x.toNat * x.toNat ≤ 252 * 252 * 252 := Nat.mul_le_mul hsq hx
  have hsq32 : (x * x).toNat = x.toNat * x.toNat := BitVec.toNat_mul_of_lt (by omega)
  have hcube32 : (x * x * x).toNat = x.toNat * x.toNat * x.toNat := by
    rw [BitVec.toNat_mul_of_lt (by rw [hsq32]; omega), hsq32]
  rw [BitVec.toNat_udiv, BitVec.toNat_add_of_lt (by rw [hcube32, hhalf]; omega), hcube32, hhalf]

section
variable {k : BitVec 32} (h1 : 255 ≤ k.toNat) (h2 : k.toNat ≤ 7905)
include h2

theorem toNat_linearCut32 : (linearCut32 k).toNat = linearCut k.toNat := by
  have hadd : (k + 50).toNat = k.toNat + 50 := BitVec.toNat_add_of_lt (by show k.toNat + 50 < _; omega)
  rw [linearCut32, BitVec.toNat_udiv, hadd]
  rfl

include h1

theorem toNat_inRange32 : (inRange32 k).toNat = inRange k.toNat := by
  have hcut := linearCut_range h1 h2
  have hcut32 := toNat_linearCut32 h2
  rw [inRange32, BitVec.toNat_sub_of_le (BitVec.le_def.mpr (by show _ ≤ 255; omega)), hcut32]
  rfl

theorem toNat_outRange32 : (outRange32 k).toNat = outRange k.toNat := by
  have hcut := linearCut_range h1 h2
  have hcut32 := toNat_linearCut32 h2
  rw [outRange32, BitVec.toNat_sub_of_le (BitVec.le_def.mpr (by omega)), hcut32]
  rfl

theorem toNat_cubeQuotient32 {l : BitVec 32} (hl : linearCut k.toNat ≤ l.toNat) (hl2 : l.toNat ≤ 255) :
    (cubeQuotient32 l k).toNat = cubeQuotient l.toNat k.toNat := by
  have hcut := linearCut_range h1 h2
  have hin := inRange_range h1 h2
  have hin32 := toNat_inRange32 h1 h2
  have hx : (l - linearCut32 k).toNat = l.toNat - linearCut k.toNat := by
    have hcut32 := toNat_linearCut32 h2
    rw [BitVec.toNat_sub_of_le (BitVec.le_def.mpr (by omega)), hcut32]
  rw [cubeQuotient32, toNat_cube_quotient (by omega) (by omega), hx, hin32]
  rfl

/-- `252 * 252 * 7826 + 252 * 252` is below `2 ^ 32`. -/
theorem toNat_scaledCube32 (m : RampRounding) {l : BitVec 32} (hl : linearCut k.toNat ≤ l.toNat)
    (hl2 : l.toNat ≤ 255) :
    (scaledCube32 m l k).toNat =
      cubeQuotient l.toNat k.toNat * outRange k.toNat + roundingBias m (inRange k.toNat) := by
  obtain ⟨_, hin⟩ := inRange_range h1 h2
  obtain ⟨_, hout⟩ := outRange_range h1 h2
  have hsq : inRange k.toNat * inRange k.toNat ≤ 252 * 252 := Nat.mul_le_mul hin hin
  have hmul : cubeQuotient l.toNat k.toNat * outRange k.toNat ≤ 252 * 252 * 7826 :=
    Nat.mul_le_mul ((cubeQuotient_le h1 h2 hl2).trans hsq) hout
  have hbias := roundingBias_lt m (inRange_pos h1 h2)
  have hin32 := toNat_inRange32 h1 h2
  have hy32 := toNat_cubeQuotient32 h1 h2 hl hl2
  have hout32 := toNat_outRange32 h1 h2
  have hmul32 : (cubeQuotient32 l k * outRange32 k).toNat = cubeQuotient l.toNat k.toNat * outRange k.toNat := by
    rw [BitVec.toNat_mul_of_lt (by rw [hy32, hout32]; omega), hy32, hout32]
  have hbias32 : (roundingBias32 m (inRange32 k)).toNat = roundingBias m (inRange k.toNat) := by
    rw [toNat_roundingBias32 m (by omega), hin32]
  rw [scaledCube32, BitVec.toNat_add_of_lt (by omega), hmul32, hbias32]

end

/-- Settles O27: the parts are exact, and their sum is at most the key. -/
theorem thirtyTwoBitsSufficeForTheRamp : Obligations.ThirtyTwoBitsSufficeForTheRamp := by
  unfold Obligations.ThirtyTwoBitsSufficeForTheRamp
  intro m l k h1 h2 hl hl2
  have hexact : (linearCut32 k).toNat + (scaledCube32 m l k / inRange32 k / inRange32 k).toNat =
      cubicRamp m l.toNat k.toNat := by
    rw [BitVec.toNat_udiv, BitVec.toNat_udiv, toNat_scaledCube32 h1 h2 m hl hl2, toNat_inRange32 h1 h2,
      toNat_linearCut32 h2, cubicRamp]
  have hkey := cubicRamp_le_key m h1 h2 hl2
  rw [cubicRamp32_eq_parts, BitVec.toNat_add_of_lt (by omega), hexact]

end Sys2Proof.Machine
end

section
/-! PROOFS. The ramp cache (O16, O22, O28 to O30): what one `LOOKUP` does, which commands leave the cache, and that
after any accesses the most recent keys come first. -/

namespace Sys2Proof.Machine

/-! ## The distinct keys of a list -/

/-- Distinct keys lose an erased one whole. -/
theorem erase_eq_filter_ne {ks : List Half} (h : ks.Nodup) (k : Half) : ks.erase k = ks.filter (fun x => x ≠ k) := by
  rw [h.erase_eq_filter]
  exact List.filter_congr fun x _ => by simp only [bne, beq_eq_decide, decide_not]

theorem mem_firstPlaces {k : Half} {ks : List Half} : k ∈ firstPlaces ks ↔ k ∈ ks := by
  induction ks with
  | nil => exact Iff.rfl
  | cons x xs ih =>
    by_cases h : k = x
    · simp [firstPlaces, h]
    · simp [firstPlaces, h, ih]

theorem nodup_firstPlaces (ks : List Half) : (firstPlaces ks).Nodup := by
  induction ks with
  | nil => exact List.nodup_nil
  | cons x xs ih => exact List.nodup_cons.mpr ⟨by simp, ih.filter _⟩

theorem firstPlaces_cons (k : Half) (ks : List Half) : firstPlaces (k :: ks) = k :: (firstPlaces ks).erase k := by
  rw [firstPlaces, erase_eq_filter_ne (nodup_firstPlaces ks)]

theorem firstPlaces_of_nodup {ks : List Half} (h : ks.Nodup) : firstPlaces ks = ks := by
  induction ks with
  | nil => rfl
  | cons k ks ih =>
    obtain ⟨hk, hks⟩ := List.nodup_cons.mp h
    rw [firstPlaces_cons, ih hks, List.erase_of_not_mem hk]

theorem length_firstPlaces_le (ks : List Half) : (firstPlaces ks).length ≤ ks.length := by
  induction ks with
  | nil => exact le_rfl
  | cons k ks ih =>
    rw [firstPlaces_cons]
    exact Nat.succ_le_succ ((List.erase_sublist).length_le.trans ih)

/-! ## The command LOOKUP -/

/-- `LOOKUP`'s one must-be-zero field is `w` (R93). -/
theorem decode_pack_lookup (l : Byte) (c : Half) (w : Word) :
    decode (pack 0x11 l c w) = if w = 0 then .ok (.lookup l c) else .error .reservedField := by
  split
  · next h =>
    subst h
    exact decode_encode (i := .lookup l c) rfl rfl
  · next h => exact decode_pack_of_not_zeroBits (o := .lookup) h

theorem exec_lookup (l : Byte) (c : Half) (s : State) :
    exec (.lookup l c) s = .next (respondOk (setCache s (cacheAccess s.cfg s.cache c).cache)
      ((tableEntry (cacheAccess s.cfg s.cache c).table l).setWidth 32)
      ⟨(cacheAccess s.cfg s.cache c).hit, false, false⟩) := rfl

/-- The ramp depends on a ceiling through its key, so the table of the key holds it (R150, R157). -/
theorem tableEntry_rampTable_normalizeCeil (cfg : Config) (c : Half) (l : Byte) :
    tableEntry (rampTable cfg (normalizeCeil c)) l = ramp cfg l c := by
  rw [tableEntry_rampTable]
  exact ramp_congr_ceil cfg l (normalizeCeil_normalizeCeil c)

theorem unchangedBut_setCache (s : State) (cache : List CacheEntry) : UnchangedBut [.cache] s (setCache s cache) := by
  refine ⟨rfl, rfl, fun p hp => ?_⟩
  cases p with
  | cache => exact absurd hp (by decide)
  | pix | out => exact fun _ => rfl
  | npix | ceilR | ceilG | ceilB | outlen | status | cause => rfl

/-- Settles O16: one access returns the key's table, hit or miss, and of distinct keys it moves the one to the front. -/
theorem lookupAnswersTheRampHitOrMiss : Obligations.LookupAnswersTheRampHitOrMiss := by
  unfold Obligations.LookupAnswersTheRampHitOrMiss
  intro l c s hc
  refine ⟨decode_pack_lookup l c, _, _, _, exec_lookup l c s, rfl, ?value, cacheAccess_hit_iff s.cfg s.cache c, ?keys,
    cacheAccess_keeps_ok hc c, (unchangedBut_setCache s _).setResponse _⟩
  case value =>
    rw [cacheAccess_table hc, tableEntry_rampTable_normalizeCeil]
    exact BitVec.toNat_setWidth_of_le (by decide)
  case keys =>
    rw [← erase_eq_filter_ne hc.distinctKeys]
    exact cacheKeys_cacheAccess s.cfg hc.atMostSix c

/-! ## The commands that leave the cache -/

/-- Every meaning but those of `LOOKUP` and `ENCODE` leaves the cache, whether it accepts or faults (R175). -/
theorem exec_keeps_cache {i : Instr} (hlookup : ∀ l c, i ≠ .lookup l c) (hencode : i ≠ .encode) (s : State) :
    ∃ u, exec i s = .next u ∧ u.cache = s.cache := by
  cases i with
  | setn n => rcases execSetn_cases n s with ⟨_, h⟩ | ⟨_, h⟩ <;> exact ⟨_, h, rfl⟩
  | setceil ch c => rcases execSetceil_cases ch c s with ⟨_, h⟩ | ⟨_, h⟩ | ⟨_, h⟩ | ⟨_, h⟩ <;> exact ⟨_, h, rfl⟩
  | wpix p r g b => rcases execWpix_cases p r g b s with ⟨_, h⟩ | ⟨_, h⟩ <;> exact ⟨_, h, rfl⟩
  | clrpix => exact ⟨_, rfl, rfl⟩
  | ramp l c => exact ⟨_, exec_ramp l c s, rfl⟩
  | lookup l c => exact absurd rfl (hlookup l c)
  | encode => exact absurd rfl hencode
  | rdout j => rcases execRdout_cases j s with ⟨_, h⟩ | ⟨_, h⟩ <;> exact ⟨_, h, rfl⟩
  | rdreg num => rcases execRdreg_cases num s with ⟨_, _, _, h⟩ | ⟨_, h⟩ <;> exact ⟨_, h, rfl⟩
  | wireStart | wireLedB1 _ _ _ | wireLedB2 _ _ _ | wireLedB4 _ _ _ | wireLedB31 _ _ _ | wireEnd =>
    exact ⟨_, exec_wire rfl s, rfl⟩

/-- Settles O22: a word that decodes is its command, and a refused word leaves all but the fault registers. -/
theorem onlyLookupAndEncodeUseTheCache : Obligations.OnlyLookupAndEncodeUseTheCache := by
  unfold Obligations.OnlyLookupAndEncodeUseTheCache
  intro s t w rest hp h hlookup hencode
  rw [step_command hp] at h
  cases hd : decode w with
  | error e =>
    rw [runWord_of_rejected hd] at h
    cases h
    exact raiseFault_cache _ e
  | ok i =>
    obtain ⟨u, hu, hcache⟩ := exec_keeps_cache (i := i) (fun l c hi => hlookup l c (hi ▸ hd))
      (fun hi => hencode (hi ▸ hd)) { s with port := rest }
    rw [runWord_of_decoded hd, hu] at h
    cases h
    exact hcache

/-! ## The most recent keys -/

/-- What is erased from the first `n + 1` is of no account to the first `n` left. -/
theorem take_erase_take (ks : List Half) (k : Half) (n : Nat) :
    ((ks.take (n + 1)).erase k).take n = (ks.erase k).take n := by
  induction ks generalizing n with
  | nil => rfl
  | cons x xs ih =>
    rw [List.take_succ_cons, List.erase_cons, List.erase_cons]
    split
    · rw [List.take_take, Nat.min_self]
    · cases n with
      | zero => rfl
      | succ n => rw [List.take_succ_cons, List.take_succ_cons, ih]

/-- One more access moves its key to the front and drops what is then seventh (R173, R174, R178). -/
theorem recentKeys_concat (cs : List Half) (c : Half) :
    recentKeys (cs ++ [c]) = normalizeCeil c :: ((recentKeys cs).erase (normalizeCeil c)).take 5 := by
  unfold recentKeys
  rw [take_erase_take, List.reverse_concat, List.map_cons, firstPlaces_cons, List.take_succ_cons]

theorem recentKeys_of_nodup {cs : List Half} (h : (cs.map normalizeCeil).Nodup) :
    recentKeys cs = (cs.reverse.map normalizeCeil).take 6 := by
  rw [recentKeys, firstPlaces_of_nodup (by rwa [List.map_reverse, List.nodup_reverse])]

theorem recentKeys_of_length_le {cs : List Half} (h : cs.length ≤ 6) :
    recentKeys cs = firstPlaces (cs.reverse.map normalizeCeil) :=
  List.take_of_length_le ((length_firstPlaces_le _).trans (by simpa using h))

theorem mem_of_mem_recentKeys {k : Half} {cs : List Half} (h : k ∈ recentKeys cs) : k ∈ cs.map normalizeCeil := by
  simpa [mem_firstPlaces] using List.mem_of_mem_take h

/-! ## A sequence of accesses -/

theorem accessAll_concat (cfg : Config) (cache : List CacheEntry) (cs : List Half) (c : Half) :
    accessAll cfg cache (cs ++ [c]) = (cacheAccess cfg (accessAll cfg cache cs) c).cache := by
  induction cs generalizing cache with
  | nil => rfl
  | cons d ds ih => exact ih _

theorem length_cacheAccess_le_six (cfg : Config) {cache : List CacheEntry} (h : cache.length ≤ 6) (c : Half) :
    (cacheAccess cfg cache c).cache.length ≤ 6 := by
  have hkeys := congrArg List.length (cacheKeys_cacheAccess cfg h c)
  simp only [cacheKeys, List.length_map, List.length_cons, List.length_take] at hkeys
  omega

theorem length_accessAll_le_six (cfg : Config) {cache : List CacheEntry} (h : cache.length ≤ 6) (cs : List Half) :
    (accessAll cfg cache cs).length ≤ 6 := by
  induction cs generalizing cache with
  | nil => exact h
  | cons c cs ih => exact ih (length_cacheAccess_le_six cfg h c)

/-- After any accesses the recent keys come first, and what follows them is left of the keys cached before
(R178, R180). -/
theorem cacheKeys_accessAll (cfg : Config) {cache : List CacheEntry} (h : cache.length ≤ 6) (cs : List Half) :
    ∃ rest, rest.Sublist (cacheKeys cache) ∧ cacheKeys (accessAll cfg cache cs) = recentKeys cs ++ rest := by
  induction cs using List.reverseRecOn with
  | nil => exact ⟨_, List.Sublist.refl _, rfl⟩
  | append_singleton cs c ih =>
    obtain ⟨rest, hrest, hkeys⟩ := ih
    rw [accessAll_concat, cacheKeys_cacheAccess cfg (length_accessAll_le_six cfg h cs), hkeys, recentKeys_concat,
      List.erase_append]
    split
    · rw [List.take_append]
      exact ⟨_, (List.take_sublist _ _).trans hrest, rfl⟩
    · next hnew =>
      rw [List.erase_of_not_mem hnew, List.take_append]
      exact ⟨_, ((List.take_sublist _ _).trans List.erase_sublist).trans hrest, rfl⟩

/-- From the empty cache nothing follows the recent keys (R178). -/
theorem cacheKeys_accessAll_nil (cfg : Config) (cs : List Half) : cacheKeys (accessAll cfg [] cs) = recentKeys cs := by
  obtain ⟨rest, hrest, hkeys⟩ := cacheKeys_accessAll cfg (cache := []) (Nat.zero_le 6) cs
  rw [hkeys, List.sublist_nil.mp hrest, List.append_nil]

theorem accessAll_nil_hit_iff (cfg : Config) (cs : List Half) (c : Half) :
    (cacheAccess cfg (accessAll cfg [] cs) c).hit = true ↔ normalizeCeil c ∈ recentKeys cs := by
  rw [cacheAccess_hit_iff, cacheKeys_accessAll_nil]

/-- Settles O28: the recent keys are all that the empty cache is left with. -/
theorem cacheHoldsTheSixMostRecentKeys : Obligations.CacheHoldsTheSixMostRecentKeys :=
  fun cfg cs => ⟨cacheKeys_accessAll_nil cfg cs, accessAll_nil_hit_iff cfg cs⟩

/-- Settles O30: three accesses have at most six keys, so their recent keys are all of their distinct ones. -/
theorem threeTablesCoexist : Obligations.ThreeTablesCoexist := by
  unfold Obligations.ThreeTablesCoexist
  intro cfg cache cR cG cB h
  obtain ⟨rest, _, hkeys⟩ := cacheKeys_accessAll cfg h [cR, cG, cB]
  rw [recentKeys_of_length_le (cs := [cR, cG, cB]) (Nat.le_add_left 3 3)] at hkeys
  exact ⟨rest, hkeys, length_accessAll_le_six cfg h _⟩

/-! ## Seven distinct keys -/

theorem cacheOk_nil (cfg : Config) : CacheOk cfg [] :=
  ⟨Nat.zero_le 6, List.nodup_nil, fun _ he => absurd he List.not_mem_nil, fun _ he => absurd he List.not_mem_nil⟩

/-- From the empty cache an access to a key not accessed before is a miss (R177). -/
theorem accessAll_nil_miss {cs : List Half} {c : Half} (cfg : Config) (h : normalizeCeil c ∉ cs.map normalizeCeil) :
    (cacheAccess cfg (accessAll cfg [] cs) c).hit = false :=
  Bool.eq_false_iff.mpr fun hhit => h (mem_of_mem_recentKeys ((accessAll_nil_hit_iff cfg cs c).mp hhit))

/-- Of distinct keys none is among those before it. -/
theorem not_mem_take_of_nodup {cs : List Half} (h : (cs.map normalizeCeil).Nodup) {n : Nat} (hn : n < cs.length) :
    normalizeCeil (cs.getD n 0) ∉ (cs.take n).map normalizeCeil := by
  rw [List.getD_eq_getElem _ _ hn, List.map_take]
  refine fun hmem => List.disjoint_take_drop h le_rfl hmem ?_
  rw [← List.map_drop]
  exact List.mem_map_of_mem (List.drop_eq_getElem_cons hn ▸ List.mem_cons_self)

/-- Settles O29: a key not accessed before misses, and of seven distinct keys the recent ones are the last six. -/
theorem seventhKeyEvictsTheFirst : Obligations.SeventhKeyEvictsTheFirst := by
  unfold Obligations.SeventhKeyEvictsTheFirst
  intro cfg c1 c2 c3 c4 c5 c6 c7 hnd
  have hrecent : recentKeys [c1, c2, c3, c4, c5, c6, c7] = [c7, c6, c5, c4, c3, c2].map normalizeCeil :=
    recentKeys_of_nodup hnd
  have hfirst : normalizeCeil c1 ∉ recentKeys [c1, c2, c3, c4, c5, c6, c7] := by
    obtain ⟨hnotin, _⟩ := List.nodup_cons.mp hnd
    rwa [hrecent, ← List.mem_reverse, ← List.map_reverse]
  refine ⟨fun n hn => accessAll_nil_miss cfg (not_mem_take_of_nodup hnd hn),
    (cacheKeys_accessAll_nil cfg _).trans hrecent, fun c hc => ?hit,
    Bool.eq_false_iff.mpr (mt (accessAll_nil_hit_iff cfg _ c1).mp hfirst),
    cacheAccess_table (accessAll_keeps_ok (cacheOk_nil cfg) _) c1, ?evict⟩
  case hit =>
    rw [accessAll_nil_hit_iff, hrecent]
    exact List.mem_map_of_mem (List.mem_reverse.mpr hc)
  case evict =>
    refine (cacheKeys_accessAll_nil cfg _).trans ((recentKeys_concat [c1, c2, c3, c4, c5, c6, c7] c1).trans ?_)
    rw [List.erase_of_not_mem hfirst, hrecent]
    rfl

end Sys2Proof.Machine
end

section
/-! PROOFS. The wire encoder as a function (O32 to O37, O55): a record as its brightness byte and three colour bytes,
which brightness is chosen, and a frame as its three parts. -/

namespace Sys2Proof.Machine

/-! ## The record -/

/-- `0xE0 | br`, the first byte of a record (R196, R199). -/
def brightnessByte : Brightness → Byte
  | .br1 => 0xE1
  | .br2 => 0xE2
  | .br4 => 0xE4
  | .br31 => 0xFF

/-- A record is its brightness byte, then blue, green, red (R199). -/
theorem wireBytes_record (r g b : Half) :
    wireBytes (record r g b) =
      [brightnessByte (selectBrightness r g b), colourByte (selectBrightness r g b) b,
        colourByte (selectBrightness r g b) g, colourByte (selectBrightness r g b) r] := by
  unfold record
  cases selectBrightness r g b <;> rfl

theorem all_le_iff_max_le {r g b n : Half} :
    r ≤ n ∧ g ≤ n ∧ b ≤ n ↔ max r.toNat (max g.toNat b.toNat) ≤ n.toNat := by
  rw [max_le_iff, max_le_iff]
  exact Iff.rfl

/-- The thresholds of R195, put to the largest value. -/
theorem selectBrightness_eq_of_max (r g b : Half) :
    selectBrightness r g b =
      if max r.toNat (max g.toNat b.toNat) ≤ 255 then .br1
      else if max r.toNat (max g.toNat b.toNat) ≤ 511 then .br2
      else if max r.toNat (max g.toNat b.toNat) ≤ 1023 then .br4
      else .br31 := by
  simp only [selectBrightness, all_le_iff_max_le]
  rfl

/-- Settles O34: the brightness chosen by the largest value, and the byte of each brightness. -/
theorem brightnessIsChosenByTheLargestValue : Obligations.BrightnessIsChosenByTheLargestValue := by
  unfold Obligations.BrightnessIsChosenByTheLargestValue
  intro r g b
  dsimp only
  rw [wireBytes_record, selectBrightness_eq_of_max, List.head?_cons]
  split_ifs <;> rfl

/-! ## The colour byte -/

/-- With divisor 1 the byte is the low byte of the value (R197). -/
theorem colourByte_br1 (v : Half) : colourByte .br1 v = v.setWidth 8 :=
  BitVec.eq_of_toNat_eq (by rw [colourByte, BitVec.toNat_ofNat, BitVec.toNat_setWidth])

/-- With divisor 2 the quotient is a shift, truncated (R197; log 3). -/
theorem colourByte_br2 (v : Half) : colourByte .br2 v = (v.setWidth 32 >>> 1 : Word).setWidth 8 := by
  have hwide : (v.setWidth 32 : Word).toNat = v.toNat := BitVec.toNat_setWidth_of_le (by decide)
  apply BitVec.eq_of_toNat_eq
  rw [colourByte, BitVec.toNat_ofNat, BitVec.toNat_setWidth, BitVec.toNat_ushiftRight, hwide, Nat.shiftRight_eq_div_pow]

/-- A word clipped to a byte (R197). -/
def clipByte (q : Word) : Byte := if 255 < q then 255 else q.setWidth 8

/-- Clipping is taking the smaller of the value and 255 (R197). -/
theorem ofNat_min_255 (q : Word) : BitVec.ofNat 8 (min 255 q.toNat) = clipByte q := by
  unfold clipByte
  split
  · next h =>
    have hlt : 255 < q.toNat := h
    rw [Nat.min_eq_left hlt.le]
    rfl
  · next h =>
    have hle : q.toNat ≤ 255 := Nat.not_lt.mp h
    rw [Nat.min_eq_right hle]
    exact BitVec.eq_of_toNat_eq (by rw [BitVec.toNat_ofNat, BitVec.toNat_setWidth])

/-- A small bias added to a u16 does not wrap in 32 bits (R198). -/
theorem toNat_setWidth_add (v : Half) {bias : Word} (h : bias.toNat < 2 ^ 16) :
    (v.setWidth 32 + bias).toNat = v.toNat + bias.toNat := by
  have hv := v.isLt
  have hwide : (v.setWidth 32 : Word).toNat = v.toNat := BitVec.toNat_setWidth_of_le (by decide)
  rw [BitVec.toNat_add_of_lt (by rw [hwide]; omega), hwide]

/-- With divisor 4 the quotient is rounded and clipped (R197). -/
theorem colourByte_br4 (v : Half) : colourByte .br4 v = clipByte ((v.setWidth 32 + 2) >>> 2) := by
  rw [← ofNat_min_255, BitVec.toNat_ushiftRight, toNat_setWidth_add v (by decide), Nat.shiftRight_eq_div_pow]
  rfl

/-- With divisor 31 the quotient is rounded and clipped (R197). -/
theorem colourByte_br31 (v : Half) : colourByte .br31 v = clipByte ((v.setWidth 32 + 15) / 31) := by
  rw [← ofNat_min_255, BitVec.toNat_udiv, toNat_setWidth_add v (by decide)]
  rfl

/-- Settles O35: for each brightness the colour bytes in 32-bit arithmetic. -/
theorem recordBytesFollowTheRule : Obligations.RecordBytesFollowTheRule := by
  unfold Obligations.RecordBytesFollowTheRule
  intro r g b
  dsimp only
  have hwide (v : Half) : ((v.setWidth 32 : Word).setWidth 8 : Byte) = v.setWidth 8 :=
    BitVec.setWidth_setWidth_of_le v (by decide)
  rw [wireBytes_record]
  unfold selectBrightness
  split
  · simp only [brightnessByte, colourByte_br1, hwide]
  · split
    · simp only [brightnessByte, colourByte_br2]
    · split
      · simp only [brightnessByte, colourByte_br4, clipByte]
      · simp only [brightnessByte, colourByte_br31, clipByte]

/-- Values that fit a byte keep their order in it. -/
theorem ofNat_le_ofNat_of_le {m n : Nat} (h : m ≤ n) (hn : n ≤ 255) : BitVec.ofNat 8 m ≤ BitVec.ofNat 8 n := by
  rw [BitVec.le_def, BitVec.toNat_ofNat, BitVec.toNat_ofNat, Nat.mod_eq_of_lt (by omega), Nat.mod_eq_of_lt (by omega)]
  exact h

/-- Settles O36: each quotient is non-decreasing, and fits a byte by the range of its brightness or by the clipping. -/
theorem colourByteIsMonotone : Obligations.ColourByteIsMonotone := by
  unfold Obligations.ColourByteIsMonotone
  intro br v v' h h1 h2
  have hle : v.toNat ≤ v'.toNat := h
  cases br with
  | br1 => exact ofNat_le_ofNat_of_le hle (h1 rfl)
  | br2 =>
    have hmax : v'.toNat ≤ 511 := h2 rfl
    exact ofNat_le_ofNat_of_le (Nat.div_le_div_right hle) (by omega)
  | br4 =>
    have hdiv : (v.toNat + 2) / 4 ≤ (v'.toNat + 2) / 4 := Nat.div_le_div_right (Nat.add_le_add_right hle 2)
    exact ofNat_le_ofNat_of_le (min_le_min_left 255 hdiv) (min_le_left ..)
  | br31 =>
    have hdiv : (v.toNat + 15) / 31 ≤ (v'.toNat + 15) / 31 := Nat.div_le_div_right (Nat.add_le_add_right hle 15)
    exact ofNat_le_ofNat_of_le (min_le_min_left 255 hdiv) (min_le_left ..)

/-! ## Records of brightness 1 -/

/-- Values up to 255 go into the record as they are (R195, R197). -/
theorem record_of_le_255 {r g b : Half} (hr : r ≤ 255) (hg : g ≤ 255) (hb : b ≤ 255) :
    record r g b = .wireLedB1 (b.setWidth 8) (g.setWidth 8) (r.setWidth 8) := by
  have hbr : selectBrightness r g b = .br1 := if_pos ⟨hr, hg, hb⟩
  rw [← colourByte_br1, ← colourByte_br1, ← colourByte_br1, record, hbr]

/-- The record of a pixel under the tables of three keys (R157, R194). -/
theorem pixelRecord_rampTable (cfg : Config) (kR kG kB : Half) (p : Color) :
    pixelRecord (rampTable cfg kR) (rampTable cfg kG) (rampTable cfg kB) p =
      record (ramp cfg p.r kR) (ramp cfg p.g kG) (ramp cfg p.b kB) := by
  rw [pixelRecord, tableEntry_rampTable, tableEntry_rampTable, tableEntry_rampTable]

/-- Settles O55: a lawful ramp is bounded by its key. -/
theorem keysOf255GiveBrightnessOne : Obligations.KeysOf255GiveBrightnessOne := by
  unfold Obligations.KeysOf255GiveBrightnessOne
  intro cfg p hlaws
  have hle (l : Byte) : ramp cfg l 255 ≤ 255 := hlaws.bounded l 255
  rw [pixelRecord_rampTable, record_of_le_255 (hle _) (hle _) (hle _)]

/-- Settles O37: level 0 is black under every key. -/
theorem blackPixelEncodesToBrightnessOne : Obligations.BlackPixelEncodesToBrightnessOne := by
  unfold Obligations.BlackPixelEncodesToBrightnessOne
  intro cfg cR cG cB
  have hblack : record 0 0 0 = .wireLedB1 0 0 0 := record_of_le_255 (by decide) (by decide) (by decide)
  rw [pixelRecord_rampTable, Color.black, ramp_zero, ramp_zero, ramp_zero, hblack]
  rfl

/-! ## The frame -/

/-- The start frame, the records in the order of the pixels, the end frame (R192, R201). -/
theorem encodeFrame_eq_append (pix : List Color) (tR tG tB : RampTable) :
    encodeFrame pix tR tG tB =
      wireBytes .wireStart ++ (pix.map (pixelRecord tR tG tB)).flatMap wireBytes ++
        List.replicate (endFrameLen pix.length) 0xFF#8 := by
  rw [encodeFrame, frameItems, List.cons_append, List.flatMap_cons, List.flatMap_append,
    flatMap_wireBytes_replicate_wireEnd, List.append_assoc]

/-- Start frame and records come to four bytes and four for each pixel (R192). -/
theorem length_start_records (pix : List Color) (tR tG tB : RampTable) :
    (wireBytes .wireStart ++ (pix.map (pixelRecord tR tG tB)).flatMap wireBytes).length = 4 + 4 * pix.length := by
  have hrecs : ∀ i ∈ pix.map (pixelRecord tR tG tB), IsLedRecord i :=
    List.forall_mem_map.mpr fun p _ => isLedRecord_pixelRecord tR tG tB p
  rw [List.length_append, length_flatMap_wireBytes hrecs, List.length_map]
  rfl

/-- Settles O32: the parts add up to `FrameLen`. -/
theorem frameHasTheFormulaLength : Obligations.FrameHasTheFormulaLength := by
  unfold Obligations.FrameHasTheFormulaLength
  exact length_encodeFrame

/-- The record of a pixel follows the start frame and the records of the pixels before it (R192). -/
theorem encodeFrame_append_cons (pre post : List Color) (p : Color) (tR tG tB : RampTable) :
    ∃ rest, encodeFrame (pre ++ p :: post) tR tG tB =
      (wireBytes .wireStart ++ (pre.map (pixelRecord tR tG tB)).flatMap wireBytes) ++
        (wireBytes (pixelRecord tR tG tB p) ++ rest) := by
  refine ⟨(post.map (pixelRecord tR tG tB)).flatMap wireBytes ++
    List.replicate (endFrameLen (pre ++ p :: post).length) 0xFF#8, ?_⟩
  rw [encodeFrame_eq_append, List.map_append, List.map_cons, List.flatMap_append, List.flatMap_cons]
  simp only [List.append_assoc]

/-- Settles O33: what stands before a part has a length of its own, and the part follows it. -/
theorem framePlacesItsParts : Obligations.FramePlacesItsParts := by
  unfold Obligations.FramePlacesItsParts
  intro pix tR tG tB
  refine ⟨?start, fun i p hp => ?record, fun j hlow hhigh => ?finish⟩
  case start =>
    rw [encodeFrame_eq_append, List.append_assoc]
    rfl
  case record =>
    obtain ⟨hi, rfl⟩ := List.getElem?_eq_some_iff.mp hp
    have hsplit : pix = pix.take i ++ pix[i] :: pix.drop (i + 1) := by simp
    obtain ⟨rest, hframe⟩ := encodeFrame_append_cons (pix.take i) (pix.drop (i + 1)) pix[i] tR tG tB
    rw [← hsplit] at hframe
    have hlen := length_start_records (pix.take i) tR tG tB
    rw [List.length_take_of_le hi.le] at hlen
    rw [hframe, List.drop_left' hlen, List.take_left' (length_wireBytes_pixelRecord ..)]
  case finish =>
    have hlen := length_start_records pix tR tG tB
    have hend : j - (4 + 4 * pix.length) < endFrameLen pix.length := by
      unfold frameLen at hhigh
      unfold endFrameLen
      omega
    rw [encodeFrame_eq_append, List.getElem?_append_right (hlen ▸ hlow), hlen, List.getElem?_replicate, if_pos hend]
    rfl

end Sys2Proof.Machine
end

section
/-! PROOFS. The encoder commands (O17, O18, O40, O42): the three cache accesses of `ENCODE` by name, what it leaves from
any cache, and the fields its frame is made from. -/

namespace Sys2Proof.Machine

/-! ## `RDOUT` -/

/-- `RDOUT`'s must-be-zero fields are `a` and `h` (R93). -/
theorem decode_pack_rdout (a : Byte) (h : Half) (j : Word) :
    decode (pack 0x21 a h j) = if a = 0 ∧ h = 0 then .ok (.rdout j) else .error .reservedField := by
  split
  · next hz =>
    obtain ⟨rfl, rfl⟩ := hz
    exact decode_encode (i := .rdout j) rfl rfl
  · next hz => exact decode_pack_of_not_zeroBits (o := .rdout) hz

/-- Settles O18: the byte below `OUTLEN`, the fault from there on. -/
theorem rdoutAnswersOneByteOrFaults : Obligations.RdoutAnswersOneByteOrFaults := by
  unfold Obligations.RdoutAnswersOneByteOrFaults
  intro j s
  refine ⟨fun a h => decode_pack_rdout a h j, fun hj => ?_, fun hj => ?_⟩
  · exact ⟨_, _, exec_rdout_of_lt hj, rfl, BitVec.toNat_setWidth_of_le (by decide), unchangedBut_response s _⟩
  · exact ⟨_, exec_rdout_of_ge hj, faultedWith_raiseFault s .indexRange⟩

/-! ## `ENCODE` -/

/-- Every operand bit of `ENCODE` must be zero (R93). -/
theorem decode_pack_encode (a : Byte) (h : Half) (w : Word) :
    decode (pack 0x20 a h w) = if a = 0 ∧ h = 0 ∧ w = 0 then .ok .encode else .error .reservedField := by
  split
  · next hz =>
    obtain ⟨rfl, rfl, rfl⟩ := hz
    exact decode_encode (i := .encode) rfl rfl
  · next hz => exact decode_pack_of_not_zeroBits (o := .encode) hz

/-- `ENCODE`'s access for red, the first (R202, R204). -/
def redAccess (s : State) : CacheResult := cacheAccess s.cfg s.cache s.ceilR

/-- `ENCODE`'s access for green, after red's (R202, R204). -/
def greenAccess (s : State) : CacheResult := cacheAccess s.cfg (accessAll s.cfg s.cache [s.ceilR]) s.ceilG

/-- `ENCODE`'s access for blue, after the other two (R202, R204). -/
def blueAccess (s : State) : CacheResult := cacheAccess s.cfg (accessAll s.cfg s.cache [s.ceilR, s.ceilG]) s.ceilB

/-- What `ENCODE` leaves from any cache: the accesses in order, and a frame under the tables they return (R202). -/
theorem exec_encode_eq (s : State) :
    exec .encode s = .next
      (respondOk (setFrame (setCache s (accessAll s.cfg s.cache [s.ceilR, s.ceilG, s.ceilB]))
          (encodeFrame s.pixels (redAccess s).table (greenAccess s).table (blueAccess s).table)
          (frameLen s.npix.toNat))
        (BitVec.ofNat 32 (frameLen s.npix.toNat)) ⟨(redAccess s).hit, (greenAccess s).hit, (blueAccess s).hit⟩) := rfl

/-- Settles O17: the frame is held as `HoldsFrame` says, and each hit bit is its own access's. -/
theorem encodeWritesTheFrame : Obligations.EncodeWritesTheFrame := by
  unfold Obligations.EncodeWritesTheFrame
  refine ⟨decode_pack_encode, fun s hc => ?_⟩
  have hexec := exec_encode_eq s
  have hframe := holdsFrame_of_encode hc hexec
  refine ⟨_, _, _, _, _, hexec, rfl, ?value, ?outlen, fun j hj => hframe.getElem? ?_, rfl,
    cacheAccess_hit_iff .., cacheAccess_hit_iff .., cacheAccess_hit_iff ..,
    (unchangedBut_setFrame_setCache s _ _ _).setResponse _⟩
  case value =>
    have hlt := frameLen_lt s.npix
    rw [BitVec.toNat_ofNat, Nat.mod_eq_of_lt (by omega)]
  case outlen => rw [hframe.outlen, length_frameOf]
  · rwa [length_frameOf]

/-- Settles O42: of no pixels the encoder makes the start frame and one end byte, whatever the tables. -/
theorem zeroPixelsGiveTheFiveByteFrame : Obligations.ZeroPixelsGiveTheFiveByteFrame := by
  unfold Obligations.ZeroPixelsGiveTheFiveByteFrame
  intro s hn
  have hpixels : s.pixels = [] := List.length_eq_zero_iff.mp (by rw [length_pixels, hn]; rfl)
  have hexec := exec_encode_eq s
  rw [hpixels, hn] at hexec
  exact ⟨_, hexec, rfl, rfl, rfl⟩

/-! ## What a frame depends on -/

/-- Of the parameters a table depends on the ramp's body alone (R155, R157). -/
theorem rampTable_congr {cfg cfg' : Config} (h : cfg'.rampBody = cfg.rampBody) (k : Half) :
    rampTable cfg' k = rampTable cfg k := by
  simp only [rampTable, ramp, h]

/-- The pixels depend on the count and the pixels that exist (R32). -/
theorem pixels_congr_of_pixelAt {s s' : State} (hn : s'.npix = s.npix)
    (hp : ∀ i, i < s.npix.toNat → pixelAt s'.pix i = pixelAt s.pix i) : s'.pixels = s.pixels := by
  rw [State.pixels, hn]
  exact List.map_congr_left fun i hi => hp i (List.mem_range.mp hi)

/-- Settles O40: both states hold the same frame, which is made of the fields they agree on. -/
theorem frameDependsOnPixelsAndCeilingsOnly : Obligations.FrameDependsOnPixelsAndCeilingsOnly := by
  unfold Obligations.FrameDependsOnPixelsAndCeilingsOnly
  intro s s' t t' hc hc' hbody hn hp hR hG hB h h'
  have hframeOf : frameOf s' = frameOf s := by
    rw [frameOf, pixels_congr_of_pixelAt hn hp, hR, hG, hB, rampTable_congr hbody, rampTable_congr hbody,
      rampTable_congr hbody, frameOf]
  have hframe := holdsFrame_of_encode hc h
  have hframe' := holdsFrame_of_encode hc' h'
  rw [hframeOf] at hframe'
  exact ⟨hframe'.out.trans hframe.out.symm, BitVec.eq_of_toNat_eq (hframe'.outlen.trans hframe.outlen.symm)⟩

end Sys2Proof.Machine
end

section
/-! PROOFS. The configuration, pixel and register commands (O11 to O14, O19) and the frame of every command (O21): for
each command its must-be-zero fields, what it answers under its guard, and what it writes. -/

namespace Sys2Proof.Machine

/-! ## `SETN` -/

/-- `SETN`'s must-be-zero fields are `a` and `w` (R93). -/
theorem decode_pack_setn (a : Byte) (n : Half) (w : Word) :
    decode (pack 0x01 a n w) = if a = 0 ∧ w = 0 then .ok (.setn n) else .error .reservedField := by
  split
  · next hz =>
    obtain ⟨rfl, rfl⟩ := hz
    exact decode_encode (i := .setn n) rfl rfl
  · next hz => exact decode_pack_of_not_zeroBits (o := .setn) hz

/-- `SETN` of a count that fits (R220). -/
theorem exec_setn_of_le {n : Half} {s : State} (h : n ≤ s.cfg.pixCap) :
    exec (.setn n) s = .next (respondOk (setPixelCount s n) 0 noHits) :=
  if_pos ((countFits_iff s n).mpr h)

/-- `SETN` of a count above `PIX_CAP` (R220). -/
theorem exec_setn_of_lt {n : Half} {s : State} (h : s.cfg.pixCap < n) :
    exec (.setn n) s = .next (raiseFault s .capacity) :=
  if_neg (mt (countFits_iff s n).mp (Nat.not_le.mpr h))

theorem unchangedBut_setPixelCount (s : State) (n : Half) :
    UnchangedBut [.npix, .pix, .out, .outlen] s (setPixelCount s n) := by
  refine ⟨rfl, rfl, fun p hp => ?_⟩
  cases p with
  | npix | pix | out | outlen => exact absurd hp (by decide)
  | ceilR | ceilG | ceilB | cache | status | cause => rfl

/-- Of the black store every pixel is black (R220, R223). -/
theorem pixels_of_blackStore {s : State} (h : s.pix = blackStore) :
    s.pixels = List.replicate s.npix.toNat Color.black := by
  have hblack : pixelAt blackStore = Function.const Nat Color.black := funext pixelAt_blackStore
  rw [State.pixels, h, hblack, List.map_const, List.length_range]

/-- Settles O11: a count that fits makes a black store and leaves no frame to read, a larger one is the fault. -/
theorem setnMakesABlackStoreOrFaults : Obligations.SetnMakesABlackStoreOrFaults := by
  unfold Obligations.SetnMakesABlackStoreOrFaults
  intro n s
  refine ⟨fun a w => decode_pack_setn a n w, fun h => ?_, fun h => ?_⟩
  · refine ⟨_, exec_setn_of_le h, rfl, rfl, pixels_of_blackStore rfl, rfl, fun j => ?_,
      (unchangedBut_setPixelCount s n).setResponse _⟩
    exact ⟨_, exec_rdout_of_ge (Nat.zero_le _), faultedWith_raiseFault _ .indexRange⟩
  · exact ⟨_, exec_setn_of_lt h, faultedWith_raiseFault s .capacity⟩

/-! ## `SETCEIL` -/

/-- The values of `a` that `SETCEIL` accepts, by the parts of the field: `a[7:2]` zero and no channel 3 (R94(b), (c)). -/
theorem toNat_le_two_iff (a : Byte) : a.toNat ≤ 2 ↔ a.extractLsb' 2 6 = 0 ∧ a.extractLsb' 0 2 ≠ 3 := by
  have hlt : a.toNat < 256 := a.isLt
  have hhigh : (a.extractLsb' 2 6).toNat = a.toNat / 4 % 64 := by
    rw [BitVec.extractLsb'_toNat, Nat.shiftRight_eq_div_pow]
  have hlow : (a.extractLsb' 0 2).toNat = a.toNat % 4 := BitVec.extractLsb'_toNat ..
  rw [ne_eq, ← BitVec.toNat_inj, ← BitVec.toNat_inj, hhigh, hlow]
  show a.toNat ≤ 2 ↔ a.toNat / 4 % 64 = 0 ∧ ¬ a.toNat % 4 = 3
  omega

/-- `SETCEIL`'s must-be-zero fields are `a[7:2]` and `w`, and its channel 3 is reserved (R93, R94(c)). -/
theorem decode_pack_setceil (a : Byte) (c : Half) (w : Word) :
    decode (pack 0x02 a c w) =
      if a.toNat ≤ 2 ∧ w = 0 then .ok (.setceil (a.extractLsb' 0 2) c) else .error .reservedField := by
  by_cases hz : ZeroBits .setceil a c w
  · refine (decode_pack_of_zeroBits hz).trans ?_
    obtain ⟨ha, hw⟩ := hz
    by_cases hch : a.extractLsb' 0 2 = 3 <;> simp [operandsOf, toNat_le_two_iff, ha, hw, hch]
  · refine (decode_pack_of_not_zeroBits hz).trans (if_neg ?_).symm
    rintro ⟨ha, hw⟩
    obtain ⟨hhigh, _⟩ := (toNat_le_two_iff a).mp ha
    exact hz ⟨hhigh, hw⟩

/-- Writing ceilings changes only those written: of any other the new value is the old one (R221). -/
theorem unchangedBut_ceilings {written : List Part} {s : State} {r g b : Half}
    (hr : Part.ceilR ∉ written → r = s.ceilR) (hg : Part.ceilG ∉ written → g = s.ceilG)
    (hb : Part.ceilB ∉ written → b = s.ceilB) :
    UnchangedBut written s { s with ceilR := r, ceilG := g, ceilB := b } := by
  refine ⟨rfl, rfl, fun p hp => ?_⟩
  cases p with
  | ceilR => exact hr hp
  | ceilG => exact hg hp
  | ceilB => exact hb hp
  | pix | out => exact fun _ => rfl
  | npix | cache | outlen | status | cause => rfl

/-- Of the ceilings `SETCEIL` writes that of its channel (R221). -/
theorem unchangedBut_setCeiling {s u : State} {ch : BitVec 2} {c : Half} (h : setCeiling s ch c = some u) :
    UnchangedBut (if ch = 0 then [.ceilR] else if ch = 1 then [.ceilG] else [.ceilB]) s u := by
  rcases setCeiling_cases s ch c with ⟨rfl, he⟩ | ⟨rfl, he⟩ | ⟨rfl, he⟩ | ⟨rfl, he⟩ <;> cases h.symm.trans he
  · exact unchangedBut_ceilings (by simp) (fun _ => rfl) (fun _ => rfl)
  · exact unchangedBut_ceilings (fun _ => rfl) (by simp) (fun _ => rfl)
  · exact unchangedBut_ceilings (fun _ => rfl) (fun _ => rfl) (by simp)

/-- `SETCEIL` leaves what `setCeiling` makes, or there is no such register (R221). -/
theorem exec_setceil_cases (ch : BitVec 2) (c : Half) (s : State) :
    (∃ u, setCeiling s ch c = some u ∧ exec (.setceil ch c) s = .next (respondOk u 0 noHits)) ∨
    exec (.setceil ch c) s = .next (raiseFault s .reservedField) := by
  rw [exec, execSetceil]
  cases setCeiling s ch c with
  | some u => exact .inl ⟨u, rfl, rfl⟩
  | none => exact .inr rfl

/-- Settles O12: each channel's register, the others as they were, and channel 3 refused. -/
theorem setceilWritesOneRawCeiling : Obligations.SetceilWritesOneRawCeiling := by
  unfold Obligations.SetceilWritesOneRawCeiling
  intro c s
  have hframe (ch : BitVec 2) {u : State} (h : setCeiling s ch c = some u) :=
    (unchangedBut_setCeiling h).setResponse (some (okWord 0 noHits))
  exact ⟨fun a w => decode_pack_setceil a c w, ⟨_, rfl, rfl, rfl, hframe 0 rfl⟩, ⟨_, rfl, rfl, rfl, hframe 1 rfl⟩,
    ⟨_, rfl, rfl, rfl, hframe 2 rfl⟩, ⟨_, rfl, faultedWith_raiseFault s .reservedField⟩⟩

/-! ## `WPIX` and `CLRPIX` -/

/-- `WPIX`'s must-be-zero fields are `a` and `w[31:24]` (R93). -/
theorem decode_pack_wpix (a z : Byte) (i : Half) (r g b : Byte) :
    decode (pack 0x03 a i (z ++ r ++ g ++ b)) = if a = 0 ∧ z = 0 then .ok (.wpix i r g b) else .error .reservedField := by
  split
  · next hz =>
    obtain ⟨rfl, rfl⟩ := hz
    exact decode_encode (i := .wpix i r g b) rfl rfl
  · next hz => exact decode_pack_of_not_zeroBits (o := .wpix) (by rwa [ZeroBits, byte3_append])

/-- Every operand bit of `CLRPIX` must be zero (R93). -/
theorem decode_pack_clrpix (a : Byte) (h : Half) (w : Word) :
    decode (pack 0x04 a h w) = if a = 0 ∧ h = 0 ∧ w = 0 then .ok .clrpix else .error .reservedField := by
  split
  · next hz =>
    obtain ⟨rfl, rfl, rfl⟩ := hz
    exact decode_encode (i := .clrpix) rfl rfl
  · next hz => exact decode_pack_of_not_zeroBits (o := .clrpix) hz

/-- `WPIX` to a pixel that exists (R222). -/
theorem exec_wpix_of_lt {i : Half} {s : State} (h : i < s.npix) (r g b : Byte) :
    exec (.wpix i r g b) s = .next (respondOk (setPixel s i.toNat ⟨r, g, b⟩) 0 noHits) := by
  rcases execWpix_cases i r g b s with ⟨_, he⟩ | ⟨hge, _⟩
  · exact he
  · exact absurd h (Nat.not_lt.mpr hge)

/-- `WPIX` at or past `NPIX` (R222). -/
theorem exec_wpix_of_ge {i : Half} {s : State} (h : s.npix ≤ i) (r g b : Byte) :
    exec (.wpix i r g b) s = .next (raiseFault s .indexRange) := by
  rcases execWpix_cases i r g b s with ⟨hlt, _⟩ | ⟨_, he⟩
  · exact absurd h (Nat.not_le.mpr hlt)
  · exact he

/-- Of the pixels a write changes the one at its index (R32, R222). -/
theorem pixels_setPixel {s : State} (hwf : s.pix.wf = true) (i : Nat) (c : Color) :
    (setPixel s i c).pixels = s.pixels.set i c := by
  refine List.ext_getElem (by simp) fun p _ _ => ?_
  simp [State.pixels, pixelAt_pixelWrite hwf, List.getElem_set, eq_comm]

/-- Settles O13: below `NPIX` one pixel write, from `NPIX` on the fault. -/
theorem wpixWritesOnePixelOrFaults : Obligations.WpixWritesOnePixelOrFaults := by
  unfold Obligations.WpixWritesOnePixelOrFaults
  intro i r g b s
  refine ⟨fun a z => decode_pack_wpix a z i r g b, fun hi hwf => ?_, fun hi => ?_⟩
  · exact ⟨_, exec_wpix_of_lt hi r g b, rfl, (pixelAt_pixelWrite hwf _ _ _).trans (if_pos rfl),
      fun _ ha => memRead_pixelWrite_ne s.pix ha _, pixels_setPixel hwf _ _, (unchangedBut_pix s _).setResponse _⟩
  · exact ⟨_, exec_wpix_of_ge hi r g b, faultedWith_raiseFault s .indexRange⟩

/-- Settles O14: the store becomes the black one, whatever the count. -/
theorem clrpixMakesEveryPixelBlack : Obligations.ClrpixMakesEveryPixelBlack := by
  unfold Obligations.ClrpixMakesEveryPixelBlack
  exact ⟨decode_pack_clrpix, fun s => ⟨_, rfl, rfl, pixels_of_blackStore rfl, (unchangedBut_pix s _).setResponse _⟩⟩

/-! ## `RDREG` -/

/-- `RDREG`'s must-be-zero fields are `h` and `w` (R93). -/
theorem decode_pack_rdreg (num : Byte) (h : Half) (w : Word) :
    decode (pack 0x30 num h w) = if h = 0 ∧ w = 0 then .ok (.rdreg num) else .error .reservedField := by
  split
  · next hz =>
    obtain ⟨rfl, rfl⟩ := hz
    exact decode_encode (i := .rdreg num) rfl rfl
  · next hz => exact decode_pack_of_not_zeroBits (o := .rdreg) hz

/-- Bit 31 and the key below it do not overlap, so `CKEYr` is their sum (R30). -/
theorem toNat_cacheKeyRegister (cache : List CacheEntry) (r : Nat) :
    (cacheKeyRegister cache r).toNat = cache[r]?.elim 0 fun e => 2 ^ 31 + e.key.toNat := by
  unfold cacheKeyRegister
  cases cache[r]? with
  | none => rfl
  | some e =>
    rw [BitVec.toNat_append, ← Nat.shiftLeft_add_eq_or_of_lt e.key.isLt]
    rfl

/-- Registers 8 to 13 of the map are `CKEY0` to `CKEY5` (R24, R30). -/
theorem registerValue_cacheKey (s : State) {r : Nat} (h : r < 6) :
    registerValue s (8 + r) = (cacheKeyRegister s.cache r).toNat := by
  rw [toNat_cacheKeyRegister]
  cases hr : s.cache[r]? with
  | none | some _ => interval_cases r <;> simp only [registerValue, hr, Option.elim]

/-- A register that is read holds the number of the map: widening to 32 bits keeps it, and `CLEN` fits (R24, R226). -/
theorem toNat_readRegister {s : State} {num : Byte} {v : Word} (hlen : s.cache.length ≤ 6)
    (hnum : num.toNat ≤ 14) (h : readRegister s num = some v) : v.toNat = registerValue s num.toNat := by
  unfold readRegister at h
  generalize num.toNat = n at h hnum
  match n, hnum, h with
  | 0, _, h | 1, _, h | 2, _, h | 3, _, h | 4, _, h | 5, _, h | 6, _, h | 14, _, h =>
    cases h
    exact BitVec.toNat_setWidth_of_le (by decide)
  | 7, _, h =>
    cases h
    exact (BitVec.toNat_ofNat ..).trans (Nat.mod_eq_of_lt (by omega))
  | 8, _, h | 9, _, h | 10, _, h | 11, _, h | 12, _, h | 13, _, h =>
    cases h
    exact (registerValue_cacheKey s (by decide)).symm

/-- Settles O19: the register of the map up to 14, the fault above. -/
theorem rdregAnswersTheRegisterOrFaults : Obligations.RdregAnswersTheRegisterOrFaults := by
  unfold Obligations.RdregAnswersTheRegisterOrFaults
  intro num s hlen
  refine ⟨fun h w => decode_pack_rdreg num h w, ?_⟩
  rcases execRdreg_cases num s with ⟨v, hle, hv, he⟩ | ⟨hgt, he⟩
  · exact ⟨fun _ => ⟨_, v, he, rfl, toNat_readRegister hlen hle hv, unchangedBut_response s _⟩,
      fun hgt => absurd hle (Nat.not_le.mpr hgt)⟩
  · exact ⟨fun hle => absurd hle (Nat.not_le.mpr hgt), fun _ => ⟨_, he, faultedWith_raiseFault s .badRegister⟩⟩

/-! ## The frame of every command -/

/-- Settles O21: an answer without `ERR` is no fault, so the guard of the command holds and it writes its column. -/
theorem commandsWriteOnlyTheirColumn : Obligations.CommandsWriteOnlyTheirColumn := by
  unfold Obligations.CommandsWriteOnlyTheirColumn
  intro i s t x h hx herr
  have hfault (c : Cause) : exec i s ≠ .next (raiseFault s c) := by
    intro hc
    cases h.symm.trans hc
    cases hx
    exact absurd herr (by simp)
  cases i with
  | setn n =>
    rcases execSetn_cases n s with ⟨_, he⟩ | ⟨_, he⟩
    · cases h.symm.trans he
      exact (unchangedBut_setPixelCount s n).setResponse _
    · exact absurd he (hfault _)
  | setceil ch c =>
    rcases exec_setceil_cases ch c s with ⟨u, hu, he⟩ | he
    · cases h.symm.trans he
      exact (unchangedBut_setCeiling hu).setResponse _
    · exact absurd he (hfault _)
  | wpix p r g b =>
    rcases execWpix_cases p r g b s with ⟨_, he⟩ | ⟨_, he⟩
    · cases h.symm.trans he
      exact ⟨(unchangedBut_pix s _).setResponse _, fun _ ha => memRead_pixelWrite_ne s.pix ha _⟩
    · exact absurd he (hfault _)
  | clrpix =>
    cases h
    exact (unchangedBut_pix s _).setResponse _
  | ramp l c =>
    cases h
    exact unchangedBut_response s _
  | lookup l c =>
    cases h
    exact (unchangedBut_setCache s _).setResponse _
  | encode =>
    cases h
    exact (unchangedBut_setFrame_setCache s _ _ _).setResponse _
  | rdout j =>
    rcases execRdout_cases j s with ⟨_, he⟩ | ⟨_, he⟩
    · cases h.symm.trans he
      exact unchangedBut_response s _
    · exact absurd he (hfault _)
  | rdreg num =>
    rcases execRdreg_cases num s with ⟨_, _, _, he⟩ | ⟨_, he⟩
    · cases h.symm.trans he
      exact unchangedBut_response s _
    · exact absurd he (hfault _)
  | wireStart | wireLedB1 _ _ _ | wireLedB2 _ _ _ | wireLedB4 _ _ _ | wireLedB31 _ _ _ | wireEnd =>
    exact hfault _ (exec_wire rfl s)

end Sys2Proof.Machine
end

section
/-! PROOFS. The exceptions (O9): an answer with `ERR` 1 is a fault's, and a fault changes `STATUS` and `CAUSE` alone. -/

namespace Sys2Proof.Machine

/-- `respond OK` answers with `ERR` 0 (R96). -/
@[simp] theorem errBit_okWord (v : Word) (f : HitFlags) : errBit (okWord v f) = false := errBit_responseWord false f 0 v

/-- Settles O9: a word is refused, or accepted, and then its answer has `ERR` 0. -/
theorem refusedCommandChangesOnlyStatusAndCause : Obligations.RefusedCommandChangesOnlyStatusAndCause := by
  unfold Obligations.RefusedCommandChangesOnlyStatusAndCause
  intro s t w x rest hp hstep hx herr
  rw [step_command hp] at hstep
  rcases runWord_cases w { s with port := rest } with ⟨c, hfault⟩ | ⟨u, v, f, _, hok⟩
  · cases hstep.symm.trans hfault
    cases hx
    exact ⟨c, rfl, faultedWith_raiseFault _ c⟩
  · cases hstep.symm.trans hok
    cases hx
    exact absurd herr (by simp)

end Sys2Proof.Machine
end

section
/-! PROOFS. Progress (O7): a step never stops, takes the oldest input off the port and keeps the parameters. -/

namespace Sys2Proof.Machine

/-- An accepted command leaves the pending inputs and the parameters (R70, R7). -/
theorem CommandEffect.portCfg {s u : State} (h : CommandEffect s u) : u.port = s.port ∧ u.cfg = s.cfg := by
  cases h <;> exact ⟨rfl, rfl⟩

/-- Performing a word is a next state with the same pending inputs and parameters, whether it is refused
or accepted (R294). -/
theorem runWord_next (w : Wide) (s : State) : ∃ t, runWord w s = .next t ∧ t.port = s.port ∧ t.cfg = s.cfg := by
  rcases runWord_cases w s with ⟨c, hfault⟩ | ⟨u, v, f, hu, hok⟩
  · exact ⟨_, hfault, raiseFault_port s c, raiseFault_cfg s c⟩
  · obtain ⟨hport, hcfg⟩ := hu.portCfg
    exact ⟨_, hok, hport, hcfg⟩

/-- Settles O7: by what stands at the head of the port, nothing, a reset or a command. -/
theorem everyStepAnswersANextState : Obligations.EveryStepAnswersANextState := by
  unfold Obligations.EveryStepAnswersANextState
  intro s
  cases hp : s.port with
  | nil => exact ⟨s, step_idle hp, hp, rfl⟩
  | cons e rest =>
    cases e with
    | reset => exact ⟨_, step_reset hp, rfl, rfl⟩
    | command w =>
      rw [step_command hp]
      exact runWord_next w { s with port := rest }

end Sys2Proof.Machine
end
